-- ==== Sys2Proof/Word.lean ====
section
/-! DEFINITION. The two word types of the block: bytes are 8 bits, host-readable registers and data words
are 16 bits (00_scope.md R10). -/

namespace Sys2Proof

/-- One byte on a wire or in a buffer (00_scope.md R10). -/
abbrev Byte := BitVec 8

/-- One 16-bit register value, op word or data word (00_scope.md R10, 30_encoding.md R70). -/
abbrev Word := BitVec 16

end Sys2Proof
end

