-- ==== Sys2Proof/Config.lean ====
section
/-! DEFINITION. The three open parameters of the block (00_scope.md R6–R9). The spec leaves each to the
implementation within a range, so the model holds them as data: State carries a `Params`, and a claim about
every state is a claim about every choice of parameters (log 4). -/

namespace Sys2Proof

/-- The implementation parameters, reported by the configuration registers (00_scope.md R6, R7, R9;
10_state.md R36). -/
structure Params where
  /-- `IBUF_SIZE`, the capacity of the capture buffer in bytes (00_scope.md R6). -/
  ibufSize : Nat
  /-- `VMAX`, the largest command value ENCODE and SEND accept, in bytes (00_scope.md R7). -/
  vmax : Nat
  /-- `NACC`, the number of entries of the accept list (00_scope.md R9). -/
  nacc : Nat
deriving DecidableEq, Repr

/-- The ranges the spec demands of the parameters (00_scope.md R6, R7, R9). -/
abbrev Params.Valid (p : Params) : Prop :=
  (23 ≤ p.ibufSize ∧ p.ibufSize ≤ 65535) ∧ (2 ≤ p.vmax ∧ p.vmax ≤ 65523) ∧ (1 ≤ p.nacc ∧ p.nacc ≤ 16)

/-- `OBUF_CAP`, the capacity of the output queue: one command frame with the largest value (00_scope.md R8). -/
abbrev Params.obufCap (p : Params) : Nat := 12 + p.vmax

/-- The parameters of `State.reset`: those the spec's own test vectors use (95_test_vectors.md, Conventions).
DESIGN CHOICE, unsafe for a claim that rests on them (log 4). -/
def Config.resetParams : Params := { ibufSize := 64, vmax := 32, nacc := 4 }

end Sys2Proof
end

