-- ==== Sys2Proof/Syntax.lean ====
section
/-! DEFINITION. What the agents can present to the block: the twelve operations (`Instr`, one constructor for each
row of the opcode table), the control-port triple that carries one (`OpRequest`), the steps of all five agents
(`Event`), and the spec's pseudo-operations. -/

namespace Sys2Proof

/-- A delimiter pair, the PAIR field of a format-P op word: 0 report, 1 command (30_encoding.md R72, R78). -/
inductive Pair where
  | report
  | command
deriving DecidableEq, Repr

/-- An accept-set selector, the ASEL field of a format-A op word: 0, 1, 2; the value 3 names no set
(42_command_codec.md R178). -/
inductive AccSel where
  | default
  | enterConfig
  | user
deriving DecidableEq, Repr

/-- The operations of the control port, one for each row of the opcode map (30_encoding.md R73), with the
fields of the op word (R72) and the data operands the operation uses (R71). -/
inductive Instr where
  /-- NOP (43_control.md R220). -/
  | nop
  /-- CAP_CLEAR (40_frame_extractor.md R102). -/
  | capClear
  /-- CAP_ARM p (40_frame_extractor.md R103). -/
  | capArm (p : Pair)
  /-- IBUF_LOAD bytes, with DBYTES = bytes (40_frame_extractor.md R104). -/
  | ibufLoad (bytes : List Byte)
  /-- EXTRACT p (40_frame_extractor.md R108). -/
  | extract (p : Pair)
  /-- DECODE_REPORT (41_report_decoder.md R144). -/
  | decodeReport
  /-- CMD_PARSE (42_command_codec.md R176). -/
  | cmdParse
  /-- ENCODE w, v, with DWORD = w and DBYTES = v (42_command_codec.md R172). -/
  | encode (w : Word) (v : List Byte)
  /-- SEND w, v, with DWORD = w and DBYTES = v (42_command_codec.md R173). -/
  | send (w : Word) (v : List Byte)
  /-- DECODE_STATUS a (42_command_codec.md R179). -/
  | decodeStatus (a : AccSel)
  /-- ACC_WR idx, valid, code, with DWORD = code (42_command_codec.md R180). -/
  | accWr (idx : BitVec 4) (valid : Bool) (code : Word)
  /-- TX_FLUSH (42_command_codec.md R175). -/
  | txFlush
deriving DecidableEq, Repr

/-- What the host presents on the control port for one operation: the triple (OPW, DWORD, DBYTES)
(30_encoding.md R70). -/
structure OpRequest where
  opw : Word
  dword : Word
  dbytes : List Byte
deriving DecidableEq, Repr

/-- One step of one agent (00_scope.md R5). Only `op` carries an op word; the other events have no opcode
(30_encoding.md R77). -/
inductive Event where
  /-- Host: one operation on the control port (30_encoding.md R70). -/
  | op (q : OpRequest)
  /-- Host: a read of register number n (43_control.md R221). -/
  | rdreg (n : Word)
  /-- Host: a read of the IBUF byte at index i (43_control.md R222). -/
  | rdbuf (i : Word)
  /-- RX source: one received byte (40_frame_extractor.md R105). -/
  | rx (b : Byte)
  /-- TX sink: it offers to take one byte (42_command_codec.md R174). -/
  | tx
  /-- Timeout source: the read timeout elapsed (40_frame_extractor.md R106). -/
  | timeout
  /-- Reset (70_reset_and_hazards.md R260). -/
  | reset
deriving DecidableEq, Repr

/-- `rx b0 b1 …` of the spec's programs: one `rx` event for each byte, in order (30_encoding.md R87). -/
abbrev Event.rxs (bytes : List Byte) : List Event := bytes.map Event.rx

/-- `tx ×n` of the spec's programs: n `tx` events (30_encoding.md R87). -/
abbrev Event.txs (n : Nat) : List Event := List.replicate n Event.tx

/-- The pseudo-operations of the session's command table; each expands to one SEND (30_encoding.md R88). -/
inductive PseudoOp where
  | enterConfig
  | exitConfig
  | enableEng
  | disableEng
  | readConfig
deriving DecidableEq, Repr

/-- The SEND a pseudo-operation expands to (30_encoding.md R88). -/
def PseudoOp.expand : PseudoOp → Instr
  | .enterConfig => .send 0x00FF#16 [0x01#8, 0x00#8]
  | .exitConfig => .send 0x00FE#16 []
  | .enableEng => .send 0x0062#16 []
  | .disableEng => .send 0x0063#16 []
  | .readConfig => .send 0x0061#16 []

/-- The DECODE_STATUS the host issues once the exchange has ended, if the table defines a status check
(30_encoding.md R88). -/
def PseudoOp.statusCheck : PseudoOp → Option Instr
  | .enterConfig => some (.decodeStatus .enterConfig)
  | .exitConfig => some (.decodeStatus .default)
  | .enableEng => some (.decodeStatus .default)
  | .disableEng => some (.decodeStatus .default)
  | .readConfig => none

end Sys2Proof
end

