-- ==== Sys2Proof/WellFormed.lean ====
section
/-! DEFINITION. Which operations the control port can carry. The fields of the op word are of types that hold
exactly their values (two pairs, three selectors, sixteen indices), so the one check left is the length of
DBYTES: "a byte sequence of any length from 0 to 65535" (30_encoding.md R70). -/

namespace Sys2Proof

/-- The longest DBYTES the control port carries (30_encoding.md R70). -/
abbrev maxDbytes : Nat := 65535

/-- DBYTES is short enough to be presented (30_encoding.md R70). -/
def presentableBytes (v : List Byte) : Bool := decide (v.length ≤ maxDbytes)

/-- The triple can be presented on the control port (30_encoding.md R70). -/
def OpRequest.presentable (q : OpRequest) : Bool := presentableBytes q.dbytes

/-- The operation can be presented: its DBYTES operand, where it has one, is short enough (30_encoding.md R70, R71). -/
def Instr.wellFormed : Instr → Bool
  | .nop => true
  | .capClear => true
  | .capArm _ => true
  | .ibufLoad bytes => presentableBytes bytes
  | .extract _ => true
  | .decodeReport => true
  | .cmdParse => true
  | .encode _ v => presentableBytes v
  | .send _ v => presentableBytes v
  | .decodeStatus _ => true
  | .accWr _ _ _ => true
  | .txFlush => true

end Sys2Proof
end

