-- ==== Sys2Proof/Decode.lean ====
section
/-! DEFINITION. The op word's decoder, total on all 65536 op words (30_encoding.md R74), and after it the encoder,
written from the same rows (R73). The encoder is also the spec's assembler: one operation, its op word and its
operands, "unused operands … presented as DWORD = 0 and DBYTES = []" (R87). -/

namespace Sys2Proof

/-- Why an op word is illegal (30_encoding.md R75). All three raise `OpError(ILLEGAL)`. -/
inductive DecodeError where
  /-- OPC is one of 0xC to 0xF. -/
  | reservedOpcode
  /-- A reserved bit of FN is set. -/
  | reservedBits
  /-- DECODE_STATUS with ASEL = 3. -/
  | reservedAsel
deriving DecidableEq, Repr

/-- OPC = OPW[15:12] (30_encoding.md R70). -/
def opcField (w : Word) : BitVec 4 := w.extractLsb' 12 4

/-- The pair a PAIR bit selects: 0 report, 1 command (30_encoding.md R72). -/
def pairOfBit (b : Bool) : Pair := if b then .command else .report

/-- The PAIR bit of a pair (30_encoding.md R72). -/
def pairBit : Pair → BitVec 1
  | .report => 0#1
  | .command => 1#1

/-- The selector ASEL = OPW[1:0] names; 3 names none (30_encoding.md R72, R75). -/
def selOfCode (w : Word) : Except DecodeError AccSel :=
  match (w.extractLsb' 0 2).toNat with
  | 0 => .ok .default
  | 1 => .ok .enterConfig
  | 2 => .ok .user
  | _ => .error .reservedAsel

/-- The ASEL code of a selector (30_encoding.md R72). -/
def selCode : AccSel → BitVec 2
  | .default => 0#2
  | .enterConfig => 1#2
  | .user => 2#2

/-- A format-N op word: every bit of FN is reserved (30_encoding.md R72). -/
def decodeN (w : Word) (i : Instr) : Except DecodeError Instr :=
  if w.extractLsb' 0 12 = 0#12 then .ok i else .error .reservedBits

/-- A format-P op word: FN[11:1] reserved, FN[0] = PAIR (30_encoding.md R72). -/
def decodeP (w : Word) (mk : Pair → Instr) : Except DecodeError Instr :=
  if w.extractLsb' 1 11 = 0#11 then .ok (mk (pairOfBit (w.getLsbD 0))) else .error .reservedBits

/-- A format-A op word: FN[11:2] reserved, FN[1:0] = ASEL (30_encoding.md R72). -/
def decodeA (w : Word) (mk : AccSel → Instr) : Except DecodeError Instr :=
  if w.extractLsb' 2 10 = 0#10 then (selOfCode w).map mk else .error .reservedBits

/-- A format-C op word: FN[11:5] reserved, FN[4] = V, FN[3:0] = IDX (30_encoding.md R72). -/
def decodeC (w : Word) (mk : BitVec 4 → Bool → Instr) : Except DecodeError Instr :=
  if w.extractLsb' 5 7 = 0#7 then .ok (mk (w.extractLsb' 0 4) (w.getLsbD 4)) else .error .reservedBits

/-- The operation a control-port triple presents, or why its op word is illegal (30_encoding.md R71, R73, R75). -/
def decode (q : OpRequest) : Except DecodeError Instr :=
  match (opcField q.opw).toNat with
  | 0x0 => decodeN q.opw .nop
  | 0x1 => decodeN q.opw .capClear
  | 0x2 => decodeP q.opw .capArm
  | 0x3 => decodeN q.opw (.ibufLoad q.dbytes)
  | 0x4 => decodeP q.opw .extract
  | 0x5 => decodeN q.opw .decodeReport
  | 0x6 => decodeN q.opw .cmdParse
  | 0x7 => decodeN q.opw (.encode q.dword q.dbytes)
  | 0x8 => decodeN q.opw (.send q.dword q.dbytes)
  | 0x9 => decodeA q.opw .decodeStatus
  | 0xA => decodeC q.opw (fun idx valid => .accWr idx valid q.dword)
  | 0xB => decodeN q.opw .txFlush
  | _ => .error .reservedOpcode

/-- The op word of an operation: OPC and FN side by side (30_encoding.md R70, R72, R73). -/
def opWord : Instr → Word
  | .nop => 0x0#4 ++ 0#12
  | .capClear => 0x1#4 ++ 0#12
  | .capArm p => 0x2#4 ++ 0#11 ++ pairBit p
  | .ibufLoad _ => 0x3#4 ++ 0#12
  | .extract p => 0x4#4 ++ 0#11 ++ pairBit p
  | .decodeReport => 0x5#4 ++ 0#12
  | .cmdParse => 0x6#4 ++ 0#12
  | .encode _ _ => 0x7#4 ++ 0#12
  | .send _ _ => 0x8#4 ++ 0#12
  | .decodeStatus a => 0x9#4 ++ 0#10 ++ selCode a
  | .accWr idx valid _ => 0xA#4 ++ 0#7 ++ BitVec.ofBool valid ++ idx
  | .txFlush => 0xB#4 ++ 0#12

/-- The DWORD operand of an operation; 0 where it uses none (30_encoding.md R71, R87). -/
def dwordOperand : Instr → Word
  | .encode w _ => w
  | .send w _ => w
  | .accWr _ _ code => code
  | .nop => 0#16
  | .capClear => 0#16
  | .capArm _ => 0#16
  | .ibufLoad _ => 0#16
  | .extract _ => 0#16
  | .decodeReport => 0#16
  | .cmdParse => 0#16
  | .decodeStatus _ => 0#16
  | .txFlush => 0#16

/-- The DBYTES operand of an operation; empty where it uses none (30_encoding.md R71, R87). -/
def dbytesOperand : Instr → List Byte
  | .ibufLoad bytes => bytes
  | .encode _ v => v
  | .send _ v => v
  | .nop => []
  | .capClear => []
  | .capArm _ => []
  | .extract _ => []
  | .decodeReport => []
  | .cmdParse => []
  | .decodeStatus _ => []
  | .accWr _ _ _ => []
  | .txFlush => []

/-- The triple that presents an operation (30_encoding.md R70, R87). -/
def encode (i : Instr) : OpRequest :=
  { opw := opWord i, dword := dwordOperand i, dbytes := dbytesOperand i }

/-- One row of the opcode map: an op word selects the row iff `(OPW & mask) = match`, and for DECODE_STATUS
also OPW[1:0] ≠ 3 (30_encoding.md R73). -/
structure OpRow where
  mnemonic : String
  mtch : Word
  mask : Word
  /-- The row also demands OPW[1:0] ≠ 3. -/
  selNot3 : Bool := false
deriving DecidableEq, Repr

/-- The opcode map as the spec prints it (30_encoding.md R73). -/
def opRows : List OpRow :=
  [ { mnemonic := "NOP", mtch := 0x0000#16, mask := 0xFFFF#16 },
    { mnemonic := "CAP_CLEAR", mtch := 0x1000#16, mask := 0xFFFF#16 },
    { mnemonic := "CAP_ARM", mtch := 0x2000#16, mask := 0xFFFE#16 },
    { mnemonic := "IBUF_LOAD", mtch := 0x3000#16, mask := 0xFFFF#16 },
    { mnemonic := "EXTRACT", mtch := 0x4000#16, mask := 0xFFFE#16 },
    { mnemonic := "DECODE_REPORT", mtch := 0x5000#16, mask := 0xFFFF#16 },
    { mnemonic := "CMD_PARSE", mtch := 0x6000#16, mask := 0xFFFF#16 },
    { mnemonic := "ENCODE", mtch := 0x7000#16, mask := 0xFFFF#16 },
    { mnemonic := "SEND", mtch := 0x8000#16, mask := 0xFFFF#16 },
    { mnemonic := "DECODE_STATUS", mtch := 0x9000#16, mask := 0xFFFC#16, selNot3 := true },
    { mnemonic := "ACC_WR", mtch := 0xA000#16, mask := 0xFFE0#16 },
    { mnemonic := "TX_FLUSH", mtch := 0xB000#16, mask := 0xFFFF#16 } ]

/-- The op word selects the row (30_encoding.md R73). -/
def OpRow.selects (r : OpRow) (w : Word) : Bool :=
  (w &&& r.mask == r.mtch) && (!r.selNot3 || w.extractLsb' 0 2 != 3#2)

/-- The mnemonic of an operation, as the opcode map spells it (30_encoding.md R73, R87). -/
def Instr.mnemonic : Instr → String
  | .nop => "NOP"
  | .capClear => "CAP_CLEAR"
  | .capArm _ => "CAP_ARM"
  | .ibufLoad _ => "IBUF_LOAD"
  | .extract _ => "EXTRACT"
  | .decodeReport => "DECODE_REPORT"
  | .cmdParse => "CMD_PARSE"
  | .encode _ _ => "ENCODE"
  | .send _ _ => "SEND"
  | .decodeStatus _ => "DECODE_STATUS"
  | .accWr _ _ _ => "ACC_WR"
  | .txFlush => "TX_FLUSH"

/-- The control-port triple for an op word given as a number of `nbits` bits: the op word, DWORD = 0 and
DBYTES = [] (30_encoding.md R70, R87; log 10). -/
def tableRequest (nbits w : Nat) : OpRequest :=
  { opw := BitVec.ofNat 16 (w % 2 ^ nbits), dword := 0#16, dbytes := [] }

/-- What the decoder reads from an op word given as a number (log 10). -/
def decodeTableWord (nbits w : Nat) : Option Instr := (decode (tableRequest nbits w)).toOption

end Sys2Proof
end

