-- ==== Sys2Proof/Machine/State.lean ====
section
/-! DEFINITION. The state of the block (10_state.md R22–R36, R41), the agents' side of the control and byte ports,
the reasons a step can stop, and the state after reset (70_reset_and_hazards.md R260). Each register is the tuple
of its fields (10_state.md R38); the 16-bit value the host reads is made in Machine/Flags.lean. -/

namespace Sys2Proof.Machine

/-- OPERR.CODE: the outcome of the last operation issued on the control port (10_state.md R33). -/
inductive OpErr where
  | ok
  | illegal
  | badIndex
  | busy
  | notReady
  | tooLong
deriving DecidableEq, Repr

/-- CAPSTAT.END: why the buffer contents ended (10_state.md R22). -/
inductive CapEnd where
  | none
  | tail
  | timeout
  | full
  | loaded
deriving DecidableEq, Repr

/-- CAPSTAT, register 0x01 (10_state.md R22). -/
structure CapStat where
  active : Bool
  pair : Pair
  /-- The field END. -/
  ended : CapEnd
  rxlost : Bool
deriving DecidableEq, Repr

/-- EXTSTAT.STATE (10_state.md R25). -/
inductive ExtState where
  | none
  | found
  | noHeader
  | noTail
deriving DecidableEq, Repr

/-- EXTSTAT, register 0x03 (10_state.md R25). -/
structure ExtStat where
  state : ExtState
  pair : Pair
  leadTail : Bool
deriving DecidableEq, Repr

/-- REPSTAT.RES (10_state.md R27). -/
inductive RepRes where
  | none
  | valid
  | corrupt
deriving DecidableEq, Repr

/-- REPSTAT.TSTATE, the source's target-state enumeration (10_state.md R27, 30_encoding.md R86). -/
inductive TState where
  | noTarget
  | movingTarget
  | staticTarget
  | bothTargets
  | unknown
deriving DecidableEq, Repr

/-- REPSTAT.CREASON: why the last DECODE_REPORT was CORRUPT (10_state.md R27). -/
inductive CReason where
  | none
  | noFrame
  | wrongPair
  | badLength
deriving DecidableEq, Repr

/-- REPSTAT, register 0x07 (10_state.md R27). -/
structure RepStat where
  res : RepRes
  tstate : TState
  creason : CReason
deriving DecidableEq, Repr

/-- CMDSTAT.RES (10_state.md R29). -/
inductive CmdRes where
  | none
  | ok
  | noFrame
  | short
deriving DecidableEq, Repr

/-- CMDSTAT, register 0x0E (10_state.md R29). -/
structure CmdStat where
  res : CmdRes
  lenMismatch : Bool
deriving DecidableEq, Repr

/-- STSTAT.RES (10_state.md R31). -/
inductive StRes where
  | none
  | success
  | failure
  | truncated
  | timeout
  | overflow
deriving DecidableEq, Repr

/-- STSTAT, register 0x13 (10_state.md R31). -/
structure StStat where
  res : StRes
  asel : AccSel
deriving DecidableEq, Repr

/-- One entry of the programmable accept list: ACC_VALID[i] and ACC_CODE[i] (10_state.md R35). -/
structure AccEntry where
  valid : Bool
  code : Word
deriving DecidableEq, Repr

/-- The capture buffer's cells, index and byte, in strictly rising index order. An index that is not listed
has no value: nothing has written it since reset made the contents unspecified (10_state.md R24,
70_reset_and_hazards.md R260; log 5). -/
abbrev Memory := List Host.Cell

/-- What a read port returned to the host (43_control.md R221, R222). -/
inductive ReadResult where
  /-- `rdreg(number)` returned `value`. -/
  | reg (number value : Word)
  /-- `rdbuf(index)` returned `value`. -/
  | buf (index : Word) (value : Byte)
deriving DecidableEq, Repr

/-- The state. The first group of fields is the block's own, named after its registers; the last three fields
are the agents' side and belong to the model (logs 1 and 9). Counts and positions are natural numbers (log 7). -/
structure State where
  /-- IBUF_SIZE, VMAX and NACC, read as CFG_IBUF_SIZE, CFG_VMAX and CFG_NACC; never changed (10_state.md R36). -/
  params : Params
  /-- OPERR.CODE (10_state.md R33). -/
  operr : OpErr
  /-- CAPSTAT (10_state.md R22). -/
  capstat : CapStat
  /-- ILEN, the number of valid bytes of IBUF (10_state.md R23). -/
  ilen : Nat
  /-- IBUF, the capture buffer (10_state.md R24). -/
  ibuf : Memory
  /-- EXTSTAT (10_state.md R25). -/
  extstat : ExtStat
  /-- EXT_HPOS (10_state.md R26). -/
  extHpos : Nat
  /-- EXT_START (10_state.md R26). -/
  extStart : Nat
  /-- EXT_LEN (10_state.md R26). -/
  extLen : Nat
  /-- REPSTAT (10_state.md R27). -/
  repstat : RepStat
  /-- REP_RAWSTATE[7:0] (10_state.md R28). -/
  repRawState : Byte
  /-- REP_MDIST[14:0] (10_state.md R28). -/
  repMdist : BitVec 15
  /-- REP_MENERGY[7:0] (10_state.md R28). -/
  repMenergy : Byte
  /-- REP_SDIST[14:0] (10_state.md R28). -/
  repSdist : BitVec 15
  /-- REP_SENERGY[7:0] (10_state.md R28). -/
  repSenergy : Byte
  /-- REP_DIST[14:0] (10_state.md R28). -/
  repDist : BitVec 15
  /-- CMDSTAT (10_state.md R29). -/
  cmdstat : CmdStat
  /-- CMD_LENF (10_state.md R30). -/
  cmdLenf : Word
  /-- CMD_WORD (10_state.md R30). -/
  cmdWord : Word
  /-- CMD_VSTART (10_state.md R30). -/
  cmdVstart : Nat
  /-- CMD_VLEN (10_state.md R30). -/
  cmdVlen : Nat
  /-- STSTAT (10_state.md R31). -/
  ststat : StStat
  /-- ST_CODE (10_state.md R32). -/
  stCode : Word
  /-- OBUF, oldest byte first; OBUF_COUNT is its length (10_state.md R34; log 12). -/
  obuf : List Byte
  /-- The accept list, NACC entries (10_state.md R35; log 13). -/
  acc : List AccEntry
  /-- Agents: the steps still to come, the next one first (00_scope.md R5; log 1). -/
  pending : List Event
  /-- Agents: the bytes the TX sink has received, oldest first (00_scope.md R15 `emit`, 20_memory.md R51; log 9). -/
  txStream : List Byte
  /-- Agents: what the read ports have returned, oldest first (43_control.md R221, R222; log 9). -/
  hostReads : List ReadResult
deriving DecidableEq, Repr

/-- The reasons a step stops. The spec's block never stops (60_exceptions.md R235), and in every state that
meets the invariant of 10_state.md R40 (`Inv`, Safety.lean) no step does: each reason names an IBUF access that
00_scope.md R15 and 40_frame_extractor.md R105 say no rule makes (log 6). -/
inductive Fault where
  /-- `MemRead(i, n)` with i + n > ILEN. Raised by DECODE_REPORT and CMD_PARSE in a state whose extraction does
  not lie within the buffer. Safe: the bytes there have no defined contents (10_state.md R24). -/
  | ibufReadBeyondIlen
  /-- `MemRead` of an index below ILEN that no write has listed. Raised by EXTRACT, DECODE_REPORT, CMD_PARSE,
  DECODE_STATUS, `rx` and the IBUF read port. Safe: such a byte has no value. -/
  | ibufReadUnwritten
  /-- `MemWrite` beyond IBUF_SIZE. Raised by `rx` in a state where a capture is active and the buffer is already
  full. Safe: no such byte exists (10_state.md R24). -/
  | ibufWriteBeyondSize
deriving DecidableEq, Repr

/-- The reasons a step has no meaning in this model. -/
inductive Refusal where
  /-- Raised by an arm of `exec` that has no meaning yet; no arm is left so. Safe: nothing can be proved of the step. -/
  | notModelled (mnemonic : String)
deriving DecidableEq, Repr

/-- What a step or a meaning answers. -/
abbrev Result := Host.Outcome State Fault Refusal

/-- The block after the `reset` event, for given parameters: every register of 10_state.md R37 at its reset
column, OBUF empty, every accept entry invalid with code 0, IBUF's contents unspecified
(70_reset_and_hazards.md R260). The agents' side is empty (logs 9 and 11). -/
def State.resetWith (p : Params) : State where
  params := p
  operr := .ok
  capstat := { active := false, pair := .report, ended := .none, rxlost := false }
  ilen := 0
  ibuf := []
  extstat := { state := .none, pair := .report, leadTail := false }
  extHpos := 0
  extStart := 0
  extLen := 0
  repstat := { res := .none, tstate := .noTarget, creason := .none }
  repRawState := 0#8
  repMdist := 0#15
  repMenergy := 0#8
  repSdist := 0#15
  repSenergy := 0#8
  repDist := 0#15
  cmdstat := { res := .none, lenMismatch := false }
  cmdLenf := 0#16
  cmdWord := 0#16
  cmdVstart := 0
  cmdVlen := 0
  ststat := { res := .none, asel := .default }
  stCode := 0#16
  obuf := []
  acc := List.replicate p.nacc { valid := false, code := 0#16 }
  pending := []
  txStream := []
  hostReads := []

/-- The machine right after reset, "the state after the first power-up" (70_reset_and_hazards.md R260), for the
parameters of `Config.resetParams` (log 4). -/
def State.reset : State := State.resetWith Config.resetParams

end Sys2Proof.Machine
end

