-- ==== Sys2Proof/Machine/Operands.lean ====
section
/-! DEFINITION. The pure functions the rules are written with: byte-sequence primitives (00_scope.md R12, R16),
little-endian assembly (R13), the delimiters (30_encoding.md R78), the frame scan of EXTRACT
(40_frame_extractor.md R108), the report field functions (41_report_decoder.md R140, R142) and the command
frame (42_command_codec.md R170). None of them looks at the state. -/

namespace Sys2Proof.Machine

/-- `le16(b0, b1)`: b0 is the low byte (00_scope.md R13). -/
def le16 (b0 b1 : Byte) : Word := b0.zeroExtend 16 ||| (b1.zeroExtend 16 <<< 8)

/-- `lo8(v) = v[7:0]` (00_scope.md R13). -/
def lo8 (v : Word) : Byte := v.extractLsb' 0 8

/-- `hi8(v) = v[15:8]` (00_scope.md R13). -/
def hi8 (v : Word) : Byte := v.extractLsb' 8 8

/-- `le16bytes(v) = [lo8(v), hi8(v)]` (00_scope.md R13). -/
def le16bytes (v : Word) : List Byte := [lo8 v, hi8 v]

/-- The slice `s[i..j)` (00_scope.md R12). -/
def slice (s : List Byte) (i j : Nat) : List Byte := (s.drop i).take (j - i)

/-- The element `s[i]` of a sequence known to be longer than i (00_scope.md R12). Every use is on the bytes of a
`MemRead` of a length above i, so the default is never taken. -/
def byteAt (s : List Byte) (i : Nat) : Byte := s.getD i 0#8

/-- `p` stands in `s` at index `i`: i + |p| ≤ |s| and s[i..i+|p|) = p (00_scope.md R16). -/
def matchesAt (s p : List Byte) (i : Nat) : Bool :=
  decide (i + p.length ≤ s.length) && (slice s i (i + p.length) == p)

/-- `find(s, p, k)`: the least index i ≥ k at which p stands in s (00_scope.md R16). -/
def find (s p : List Byte) (k : Nat) : Option Nat :=
  (List.range' k (s.length + 1 - k)).find? (matchesAt s p)

/-- `occurs(s, p, k, m)`: p stands in s at some index i with k ≤ i < m (00_scope.md R16). -/
def occurs (s p : List Byte) (k m : Nat) : Bool :=
  (List.range' k (m - k)).any (matchesAt s p)

/-- `endsWith(s, p)`: |s| ≥ |p| and the last |p| bytes of s are p (00_scope.md R16). -/
def endsWith (s p : List Byte) : Bool :=
  decide (p.length ≤ s.length) && (slice s (s.length - p.length) s.length == p)

/-- `HDR(p)`, the header of a pair, in wire order (30_encoding.md R78). -/
def hdr : Pair → List Byte
  | .report => [0xF4#8, 0xF3#8, 0xF2#8, 0xF1#8]
  | .command => [0xFD#8, 0xFC#8, 0xFB#8, 0xFA#8]

/-- `TAIL(p)`, the tail of a pair, in wire order (30_encoding.md R78). -/
def tailOf : Pair → List Byte
  | .report => [0xF8#8, 0xF7#8, 0xF6#8, 0xF5#8]
  | .command => [0x04#8, 0x03#8, 0x02#8, 0x01#8]

/-- What EXTRACT finds in a buffer (10_state.md R25, R26). -/
structure Extraction where
  state : ExtState
  leadTail : Bool
  hpos : Nat
  start : Nat
  len : Nat
deriving DecidableEq, Repr

/-- The frame scan of EXTRACT p over the buffer s: the body strictly between the first header and the first
tail after it (40_frame_extractor.md R108, R109). -/
def scanFrame (p : Pair) (s : List Byte) : Extraction :=
  match find s (hdr p) 0 with
  | none =>
    { state := .noHeader, leadTail := (find s (tailOf p) 0).isSome, hpos := 0, start := 0, len := 0 }
  | some h =>
    match find s (tailOf p) (h + 4) with
    | none => { state := .noTail, leadTail := occurs s (tailOf p) 0 h, hpos := h, start := 0, len := 0 }
    | some t =>
      { state := .found, leadTail := occurs s (tailOf p) 0 h, hpos := h, start := h + 4, len := t - (h + 4) }

/-- `s16(u)`: the pattern read as a two's-complement integer (00_scope.md R14). -/
def s16 (u : Word) : Int := if u.toNat < 32768 then (u.toNat : Int) else (u.toNat : Int) - 65536

/-- `smag16(u)`: the source's sign-magnitude algorithm, the result a 15-bit magnitude (41_report_decoder.md R140). -/
def smag16 (u : Word) : BitVec 15 :=
  let x := s16 u
  if 0 ≤ x then BitVec.ofNat 15 x.natAbs else BitVec.ofNat 15 (-32768 - x).natAbs

/-- `tstate(b)`: the target state a state byte names; total (41_report_decoder.md R142, 30_encoding.md R86). -/
def tstateOf (b : Byte) : TState :=
  match b.toNat with
  | 0 => .noTarget
  | 1 => .movingTarget
  | 2 => .staticTarget
  | 3 => .bothTargets
  | _ => .unknown

/-- `cmdframe(w, v)`: header, length 2 + |v|, command word, value, tail (42_command_codec.md R170). -/
def cmdframe (w : Word) (v : List Byte) : List Byte :=
  hdr .command ++ le16bytes (BitVec.ofNat 16 (2 + v.length)) ++ le16bytes w ++ v ++ tailOf .command

/-- A report frame on the wire: header, 4-byte prefix, 9-byte target payload, 2 trailing bytes, tail
(30_encoding.md R79). The block never builds one; claims about received frames are stated with it. -/
def reportFrame (pre payload trailing : List Byte) : List Byte :=
  hdr .report ++ pre ++ payload ++ trailing ++ tailOf .report

/-- The accepted set `DEFAULT` (42_command_codec.md R177). -/
def acceptDefault : List Word := [0#16]

/-- The accepted set `ENTER_CONFIG`: 0, 128, 32896 and 32928, exactly (42_command_codec.md R177, R183). -/
def acceptEnterConfig : List Word := [0x0000#16, 0x0080#16, 0x8080#16, 0x80A0#16]

/-- The `USER` set of an accept list of `nacc` entries: the codes of its valid entries (10_state.md R35). -/
def acceptUser (nacc : Nat) (acc : List AccEntry) : List Word :=
  ((acc.take nacc).filter AccEntry.valid).map AccEntry.code

end Sys2Proof.Machine
end

