-- ==== Sys2Proof/Machine/Flags.lean ====
section
/-! DEFINITION. The numeric codes of every register field and the 16-bit value of every register, "the
concatenation of its fields at the stated bit positions" (10_state.md R22–R38), then the whole register map
(R37). -/

namespace Sys2Proof.Machine

/-- PAIR: 0 report, 1 command (10_state.md R22, R25). -/
def pairCode : Pair → BitVec 1
  | .report => 0#1
  | .command => 1#1

/-- ASEL: 0, 1, 2 (10_state.md R31, 42_command_codec.md R178). -/
def aselCode : AccSel → BitVec 2
  | .default => 0#2
  | .enterConfig => 1#2
  | .user => 2#2

/-- OPERR.CODE (10_state.md R33, 60_exceptions.md R231). -/
def operrCode : OpErr → BitVec 3
  | .ok => 0#3
  | .illegal => 1#3
  | .badIndex => 2#3
  | .busy => 3#3
  | .notReady => 4#3
  | .tooLong => 5#3

/-- CAPSTAT.END (10_state.md R22). -/
def capEndCode : CapEnd → BitVec 3
  | .none => 0#3
  | .tail => 1#3
  | .timeout => 2#3
  | .full => 3#3
  | .loaded => 4#3

/-- EXTSTAT.STATE (10_state.md R25). -/
def extStateCode : ExtState → BitVec 2
  | .none => 0#2
  | .found => 1#2
  | .noHeader => 2#2
  | .noTail => 3#2

/-- REPSTAT.RES (10_state.md R27). -/
def repResCode : RepRes → BitVec 2
  | .none => 0#2
  | .valid => 1#2
  | .corrupt => 2#2

/-- REPSTAT.TSTATE (10_state.md R27, 30_encoding.md R86). -/
def tstateCode : TState → BitVec 3
  | .noTarget => 0#3
  | .movingTarget => 1#3
  | .staticTarget => 2#3
  | .bothTargets => 3#3
  | .unknown => 4#3

/-- REPSTAT.CREASON (10_state.md R27). -/
def creasonCode : CReason → BitVec 2
  | .none => 0#2
  | .noFrame => 1#2
  | .wrongPair => 2#2
  | .badLength => 3#2

/-- CMDSTAT.RES (10_state.md R29). -/
def cmdResCode : CmdRes → BitVec 2
  | .none => 0#2
  | .ok => 1#2
  | .noFrame => 2#2
  | .short => 3#2

/-- STSTAT.RES (10_state.md R31). -/
def stResCode : StRes → BitVec 3
  | .none => 0#3
  | .success => 1#3
  | .failure => 2#3
  | .truncated => 3#3
  | .timeout => 4#3
  | .overflow => 5#3

/-- OPERR, register 0x00: [2:0] CODE (10_state.md R33). -/
def operrWord (e : OpErr) : Word := 0#13 ++ operrCode e

/-- CAPSTAT, register 0x01: [5] RXLOST, [4:2] END, [1] PAIR, [0] ACTIVE (10_state.md R22). -/
def capstatWord (c : CapStat) : Word :=
  0#10 ++ BitVec.ofBool c.rxlost ++ capEndCode c.ended ++ pairCode c.pair ++ BitVec.ofBool c.active

/-- EXTSTAT, register 0x03: [3] LEADTAIL, [2] PAIR, [1:0] STATE (10_state.md R25). -/
def extstatWord (e : ExtStat) : Word :=
  0#12 ++ BitVec.ofBool e.leadTail ++ pairCode e.pair ++ extStateCode e.state

/-- REPSTAT, register 0x07: [6:5] CREASON, [4:2] TSTATE, [1:0] RES (10_state.md R27). -/
def repstatWord (r : RepStat) : Word :=
  0#9 ++ creasonCode r.creason ++ tstateCode r.tstate ++ repResCode r.res

/-- CMDSTAT, register 0x0E: [2] LENMISMATCH, [1:0] RES (10_state.md R29). -/
def cmdstatWord (c : CmdStat) : Word :=
  0#13 ++ BitVec.ofBool c.lenMismatch ++ cmdResCode c.res

/-- STSTAT, register 0x13: [4:3] ASEL, [2:0] RES (10_state.md R31). -/
def ststatWord (t : StStat) : Word := 0#11 ++ aselCode t.asel ++ stResCode t.res

/-- The valid bits of a list of accept entries as a number, entry 0 in bit 0. -/
def validBits : List AccEntry → Nat
  | [] => 0
  | e :: es => e.valid.toNat + 2 * validBits es

/-- ACC_VALID, register 0x19: bit i is the valid bit of entry i; bits NACC to 15 read 0 (10_state.md R35). -/
def accValidWord (nacc : Nat) (acc : List AccEntry) : Word := BitVec.ofNat 16 (validBits (acc.take nacc))

/-- ACC_CODE[i], register 0x20 + i, for i < NACC (10_state.md R35). Under the invariant the list has NACC
entries, so the default is never taken. -/
def accCodeWord (acc : List AccEntry) (i : Nat) : Word := (acc.getD i { valid := false, code := 0#16 }).code

/-- OBUF_COUNT, the number of bytes in OBUF (10_state.md R34). -/
def State.obufCount (s : State) : Nat := s.obuf.length

/-- The register map: the 16-bit value of register number n; an unmapped number reads 0 (10_state.md R37, R38). -/
def regValue (s : State) (n : Word) : Word :=
  match n.toNat with
  | 0x00 => operrWord s.operr
  | 0x01 => capstatWord s.capstat
  | 0x02 => BitVec.ofNat 16 s.ilen
  | 0x03 => extstatWord s.extstat
  | 0x04 => BitVec.ofNat 16 s.extHpos
  | 0x05 => BitVec.ofNat 16 s.extStart
  | 0x06 => BitVec.ofNat 16 s.extLen
  | 0x07 => repstatWord s.repstat
  | 0x08 => s.repRawState.zeroExtend 16
  | 0x09 => s.repMdist.zeroExtend 16
  | 0x0A => s.repMenergy.zeroExtend 16
  | 0x0B => s.repSdist.zeroExtend 16
  | 0x0C => s.repSenergy.zeroExtend 16
  | 0x0D => s.repDist.zeroExtend 16
  | 0x0E => cmdstatWord s.cmdstat
  | 0x0F => s.cmdLenf
  | 0x10 => s.cmdWord
  | 0x11 => BitVec.ofNat 16 s.cmdVstart
  | 0x12 => BitVec.ofNat 16 s.cmdVlen
  | 0x13 => ststatWord s.ststat
  | 0x14 => s.stCode
  | 0x15 => BitVec.ofNat 16 s.obufCount
  | 0x16 => BitVec.ofNat 16 s.params.ibufSize
  | 0x17 => BitVec.ofNat 16 s.params.vmax
  | 0x18 => BitVec.ofNat 16 s.params.nacc
  | 0x19 => accValidWord s.params.nacc s.acc
  | k => if 0x20 ≤ k ∧ k < 0x20 + s.params.nacc then accCodeWord s.acc (k - 0x20) else 0#16

end Sys2Proof.Machine
end

