-- ==== Sys2Proof/Machine/Ops.lean ====
section
/-! DEFINITION. The operations every rule is written with (00_scope.md R15): the capture buffer's cells, `MemRead`
and `MemWrite`, the output queue, `InvalidateViews`, arming a capture, and the two ways an operation ends:
`raise OpError(c)` and success (60_exceptions.md R233). There is no trap entry and no trap return
(60_exceptions.md R238, R239), so `raiseOpError` is all there is to taking an error. -/

namespace Sys2Proof.Machine

/-- The canonical form of the buffer's cells: strictly rising indices. -/
abbrev Memory.wf (m : Memory) : Prop := m.Pairwise (fun c d => c.1 < d.1)

/-- The byte at an index, if one is listed. -/
def Memory.read? : Memory → Nat → Option Byte
  | [], _ => none
  | (k, b) :: m, a => if k = a then some b else Memory.read? m a

/-- The n bytes from index i on, if all are listed. -/
def Memory.readMany? (m : Memory) : Nat → Nat → Option (List Byte)
  | _, 0 => some []
  | i, n + 1 =>
    match m.read? i, Memory.readMany? m (i + 1) n with
    | some b, some bs => some (b :: bs)
    | _, _ => none

/-- The cells with the byte at one index written. -/
def Memory.write : Memory → Nat → Byte → Memory
  | [], a, b => [(a, b)]
  | (k, c) :: m, a, b =>
    if a < k then (a, b) :: (k, c) :: m
    else if a = k then (a, b) :: m
    else (k, c) :: Memory.write m a b

/-- The cells with the bytes of a sequence written from one index on. -/
def Memory.writeMany (m : Memory) : Nat → List Byte → Memory
  | _, [] => m
  | i, b :: bs => Memory.writeMany (m.write i b) (i + 1) bs

/-- `MemRead(i, n)`, the slice IBUF[i..i+n), "used only where i + n ≤ ILEN" (00_scope.md R15; logs 5 and 6). -/
def memRead (i n : Nat) (s : State) : Except Fault (List Byte) :=
  if i + n ≤ s.ilen then
    match s.ibuf.readMany? i n with
    | some bs => .ok bs
    | none => .error .ibufReadUnwritten
  else .error .ibufReadBeyondIlen

/-- `MemWrite(i, n, v)` with n = |v|: the bytes of v at IBUF[i..i+n) (00_scope.md R15; log 6). -/
def memWrite (i : Nat) (v : List Byte) (s : State) : Except Fault State :=
  if i + v.length ≤ s.params.ibufSize then .ok { s with ibuf := s.ibuf.writeMany i v }
  else .error .ibufWriteBeyondSize

/-- Go on with what an access of IBUF gave, or stop with its fault. -/
def withAccess {α : Type} (r : Except Fault α) (go : α → Result) : Result :=
  match r with
  | .ok a => go a
  | .error f => .fault f

/-- `raise OpError(c)`: OPERR.CODE ← c, and nothing else changes (60_exceptions.md R233). -/
def raiseOpError (c : OpErr) (s : State) : Result := .next { s with operr := c }

/-- The end of an operation that raises no error: OPERR.CODE ← 0 (60_exceptions.md R233). -/
def complete (s : State) : Result := .next { s with operr := .ok }

/-- `InvalidateViews()`: EXTSTAT.STATE ← NONE and CMDSTAT.RES ← NONE (40_frame_extractor.md R101). -/
def invalidateViews (s : State) : State :=
  { s with extstat := { s.extstat with state := .none }, cmdstat := { s.cmdstat with res := .none } }

/-- Empty the buffer and arm a capture for a pair: what CAP_ARM and SEND share (40_frame_extractor.md R103,
42_command_codec.md R173). -/
def armCapture (p : Pair) (s : State) : State :=
  invalidateViews
    { s with ilen := 0, capstat := { active := true, pair := p, ended := .none, rxlost := false } }

/-- The end of a capture: ACTIVE ← 0 and END ← why (40_frame_extractor.md R105, R106). -/
def endCapture (why : CapEnd) (s : State) : State :=
  { s with capstat := { s.capstat with active := false, ended := why } }

/-- `ObufPush(bytes)`: append to the tail of the output queue (00_scope.md R15). -/
def obufPush (bytes : List Byte) (s : State) : State := { s with obuf := s.obuf ++ bytes }

/-- `emit(b)`: the TX sink receives the byte (00_scope.md R15). -/
def emit (b : Byte) (s : State) : State := { s with txStream := s.txStream ++ [b] }

/-- The check ENCODE and SEND share: BUSY while OBUF holds bytes or a capture is active, then TOO_LONG for a
value beyond VMAX; otherwise go on (42_command_codec.md R172, R173; 60_exceptions.md R232). -/
def withFreePort (v : List Byte) (s : State) (go : Result) : Result :=
  if 0 < s.obufCount ∨ s.capstat.active = true then raiseOpError .busy s
  else if s.params.vmax < v.length then raiseOpError .tooLong s
  else go

/-- `accset(a)`, the accepted set a selector names (42_command_codec.md R178). -/
def accset (a : AccSel) (s : State) : List Word :=
  match a with
  | .default => acceptDefault
  | .enterConfig => acceptEnterConfig
  | .user => acceptUser s.params.nacc s.acc

end Sys2Proof.Machine
end

