-- ==== Sys2Proof/Machine/Capture.lean ====
section
/-! DEFINITION. The delimiter scanner and frame extractor: CAP_CLEAR, CAP_ARM, IBUF_LOAD, EXTRACT, and the events `rx`
and `timeout` (40_frame_extractor.md R100–R112). -/

namespace Sys2Proof.Machine

/-- CAP_CLEAR: empty the buffer and abort any capture; CAPSTAT.PAIR is kept (40_frame_extractor.md R102). -/
def execCapClear (s : State) : Result :=
  complete (invalidateViews
    { s with ilen := 0, capstat := { s.capstat with active := false, ended := .none, rxlost := false } })

/-- CAP_ARM p: start a capture for pair p; BUSY if one is active (40_frame_extractor.md R103). -/
def execCapArm (p : Pair) (s : State) : Result :=
  if s.capstat.active = true then raiseOpError .busy s else complete (armCapture p s)

/-- IBUF_LOAD bytes: replace the buffer's contents; BUSY while a capture is active, then TOO_LONG beyond
IBUF_SIZE (40_frame_extractor.md R104). -/
def execIbufLoad (bytes : List Byte) (s : State) : Result :=
  if s.capstat.active = true then raiseOpError .busy s
  else if s.params.ibufSize < bytes.length then raiseOpError .tooLong s
  else withAccess (memWrite 0 bytes s) fun t =>
    complete (invalidateViews
      { t with ilen := bytes.length, capstat := { t.capstat with ended := .loaded, rxlost := false } })

/-- EXTRACT p: find the frame body of pair p in IBUF[0..ILEN); NOT_READY while a capture is active
(40_frame_extractor.md R108). -/
def execExtract (p : Pair) (s : State) : Result :=
  if s.capstat.active = true then raiseOpError .notReady s
  else withAccess (memRead 0 s.ilen s) fun bytes =>
    let x := scanFrame p bytes
    complete { s with
      extstat := { state := x.state, pair := p, leadTail := x.leadTail }
      extHpos := x.hpos
      extStart := x.start
      extLen := x.len }

/-- Event `rx b`: drop the byte when no capture is active, otherwise append it and end the capture at the armed
pair's tail, or else when IBUF is full (40_frame_extractor.md R105). -/
def evRx (b : Byte) (s : State) : Result :=
  if s.capstat.active = false then .next { s with capstat := { s.capstat with rxlost := true } }
  else withAccess (memWrite s.ilen [b] s) fun t =>
    let u := invalidateViews { t with ilen := t.ilen + 1 }
    withAccess (memRead 0 u.ilen u) fun bytes =>
      if endsWith bytes (tailOf u.capstat.pair) = true then .next (endCapture .tail u)
      else if u.ilen = u.params.ibufSize then .next (endCapture .full u)
      else .next u

/-- Event `timeout`: end an active capture and keep the bytes; otherwise no effect (40_frame_extractor.md R106). -/
def evTimeout (s : State) : Result :=
  if s.capstat.active = true then .next (endCapture .timeout s) else .next s

end Sys2Proof.Machine
end

