-- ==== Sys2Proof/Machine/Codec.lean ====
section
/-! DEFINITION. The command frame encoder and decoder: ENCODE, SEND, TX_FLUSH, CMD_PARSE, DECODE_STATUS, ACC_WR and the
event `tx` (42_command_codec.md R170–R183). -/

namespace Sys2Proof.Machine

/-- ENCODE w, v: queue the command frame without waiting for a response (42_command_codec.md R172). -/
def execEncode (w : Word) (v : List Byte) (s : State) : Result :=
  withFreePort v s (complete (obufPush (cmdframe w v) s))

/-- SEND w, v: queue the command frame and arm a capture for the command pair in the same step
(42_command_codec.md R173). -/
def execSend (w : Word) (v : List Byte) (s : State) : Result :=
  withFreePort v s (complete (armCapture .command (obufPush (cmdframe w v) s)))

/-- TX_FLUSH: discard every byte still queued; an active capture goes on (42_command_codec.md R175). -/
def execTxFlush (s : State) : Result := complete { s with obuf := [] }

/-- Event `tx`: the sink takes the oldest byte of OBUF. "There is no `tx` step from an empty queue": there the sink
gets nothing and the block does not move (42_command_codec.md R174; log 3). -/
def evTx (s : State) : Result :=
  match s.obuf with
  | [] => .next s
  | b :: rest => .next (emit b { s with obuf := rest })

/-- A CMD_PARSE that reads no fields: CMDSTAT only (42_command_codec.md R176). -/
def parseFailed (r : CmdRes) (s : State) : State := { s with cmdstat := { res := r, lenMismatch := false } }

/-- A CMD_PARSE of the body B, of at least 4 bytes (42_command_codec.md R176). -/
def parseBody (B : List Byte) (s : State) : State :=
  let lenf := le16 (byteAt B 0) (byteAt B 1)
  { s with
    cmdLenf := lenf
    cmdWord := le16 (byteAt B 2) (byteAt B 3)
    cmdVstart := s.extStart + 4
    cmdVlen := s.extLen - 4
    cmdstat := { res := .ok, lenMismatch := decide (lenf.toNat ≠ s.extLen - 2) } }

/-- CMD_PARSE: split the current extraction, a command frame body, into its fields; NOT_READY when there is no
extraction (42_command_codec.md R176). -/
def execCmdParse (s : State) : Result :=
  if s.extstat.state = .none then raiseOpError .notReady s
  else if s.extstat.state ≠ .found ∨ s.extstat.pair ≠ .command then complete (parseFailed .noFrame s)
  else if s.extLen < 4 then complete (parseFailed .short s)
  else withAccess (memRead s.extStart s.extLen s) fun B => complete (parseBody B s)

/-- The result of a DECODE_STATUS: RES, ASEL and ST_CODE (42_command_codec.md R179). -/
def statusResult (a : AccSel) (r : StRes) (code : Word) (s : State) : State :=
  { s with ststat := { res := r, asel := a }, stCode := code }

/-- DECODE_STATUS a: judge the response in IBUF[0..ILEN), checking TIMEOUT, OVERFLOW, TRUNCATED and then the code
at offsets 8–9 against `accset(a)`; NOT_READY while a capture is active (42_command_codec.md R179). -/
def execDecodeStatus (a : AccSel) (s : State) : Result :=
  if s.capstat.active = true then raiseOpError .notReady s
  else if s.capstat.ended = .timeout then complete (statusResult a .timeout 0#16 s)
  else if s.capstat.ended = .full then complete (statusResult a .overflow 0#16 s)
  else if s.ilen < 10 then complete (statusResult a .truncated 0#16 s)
  else withAccess (memRead 8 2 s) fun R =>
    let c := le16 (byteAt R 0) (byteAt R 1)
    complete (statusResult a (if c ∈ accset a s then .success else .failure) c s)

/-- ACC_WR idx, valid, code: write one entry of the accept list; BAD_INDEX beyond it (42_command_codec.md R180). -/
def execAccWr (idx : BitVec 4) (valid : Bool) (code : Word) (s : State) : Result :=
  if s.params.nacc ≤ idx.toNat then raiseOpError .badIndex s
  else complete { s with acc := s.acc.set idx.toNat { valid := valid, code := code } }

end Sys2Proof.Machine
end

