-- ==== Sys2Proof/Machine/Control.lean ====
section
/-! DEFINITION. NOP, the two host read ports and the `reset` event (43_control.md R220–R222,
70_reset_and_hazards.md R260). -/

namespace Sys2Proof.Machine

/-- NOP: OPERR.CODE ← OK and nothing else (43_control.md R220). -/
def execNop (s : State) : Result := complete s

/-- `rdreg(n)` (43_control.md R221). -/
def rdreg (n : Word) (s : State) : Word := regValue s n

/-- `rdbuf(i)`: IBUF[i] if i < ILEN and 0x00 otherwise (43_control.md R222). -/
def rdbuf (i : Word) (s : State) : Except Fault Byte :=
  if i.toNat < s.ilen then (memRead i.toNat 1 s).map (fun bytes => byteAt bytes 0) else .ok 0#8

/-- The host's step of reading a register: the value goes to the host, and no other state changes
(43_control.md R221; log 9). -/
def evRdreg (n : Word) (s : State) : Result :=
  .next { s with hostReads := s.hostReads ++ [.reg n (rdreg n s)] }

/-- The host's step of reading an IBUF byte: the value goes to the host, and no other state changes
(43_control.md R222; log 9). -/
def evRdbuf (i : Word) (s : State) : Result :=
  withAccess (rdbuf i s) fun b => .next { s with hostReads := s.hostReads ++ [.buf i b] }

/-- Event `reset`: the block takes its reset state, keeping its parameters. The agents keep the steps they have
still to make, the bytes already emitted and the values already read (70_reset_and_hazards.md R260; logs 9 and 14). -/
def evReset (s : State) : Result :=
  .next { State.resetWith s.params with
    pending := s.pending, txStream := s.txStream, hostReads := s.hostReads }

end Sys2Proof.Machine
end

