-- ==== Sys2Proof/Machine/Report.lean ====
section
/-! DEFINITION. The report frame payload deserializer: DECODE_REPORT (41_report_decoder.md R143–R148). -/

namespace Sys2Proof.Machine

/-- A CORRUPT result: RES and CREASON are written, TSTATE and the report value registers are kept
(41_report_decoder.md R144, 10_state.md R28). -/
def reportCorrupt (why : CReason) (s : State) : State :=
  { s with repstat := { s.repstat with res := .corrupt, creason := why } }

/-- A VALID result: the report registers take the fields of the 9-byte target payload P
(41_report_decoder.md R143, R144, R148). -/
def reportValid (P : List Byte) (s : State) : State :=
  { s with
    repRawState := byteAt P 0
    repMdist := smag16 (le16 (byteAt P 1) (byteAt P 2))
    repMenergy := byteAt P 3
    repSdist := smag16 (le16 (byteAt P 4) (byteAt P 5))
    repSenergy := byteAt P 6
    repDist := smag16 (le16 (byteAt P 7) (byteAt P 8))
    repstat := { res := .valid, tstate := tstateOf (byteAt P 0), creason := .none } }

/-- DECODE_REPORT: decode the current extraction as a target report; NOT_READY when there is none
(41_report_decoder.md R144). -/
def execDecodeReport (s : State) : Result :=
  if s.extstat.state = .none then raiseOpError .notReady s
  else if s.extstat.state ≠ .found then complete (reportCorrupt .noFrame s)
  else if s.extstat.pair ≠ .report then complete (reportCorrupt .wrongPair s)
  else if s.extLen ≠ 15 then complete (reportCorrupt .badLength s)
  else withAccess (memRead (s.extStart + 4) 9 s) fun P => complete (reportValid P s)

end Sys2Proof.Machine
end

