-- ==== Sys2Proof/Machine/Dispatch.lean ====
section
/-! DEFINITION. One arm for each operation of the opcode map (30_encoding.md R73), each a direct call of its meaning. -/

namespace Sys2Proof.Machine

def exec (i : Instr) (s : State) : Host.Outcome State Fault Refusal :=
  match i with
  | .nop => Sys2Proof.Machine.execNop s
  | .capClear => Sys2Proof.Machine.execCapClear s
  | .capArm p => Sys2Proof.Machine.execCapArm p s
  | .ibufLoad bytes => Sys2Proof.Machine.execIbufLoad bytes s
  | .extract p => Sys2Proof.Machine.execExtract p s
  | .decodeReport => Sys2Proof.Machine.execDecodeReport s
  | .cmdParse => Sys2Proof.Machine.execCmdParse s
  | .encode w v => Sys2Proof.Machine.execEncode w v s
  | .send w v => Sys2Proof.Machine.execSend w v s
  | .decodeStatus a => Sys2Proof.Machine.execDecodeStatus a s
  | .accWr idx valid code => Sys2Proof.Machine.execAccWr idx valid code s
  | .txFlush => Sys2Proof.Machine.execTxFlush s

end Sys2Proof.Machine
end

