-- ==== Sys2Proof/Machine/Agents.lean ====
section
/-! DEFINITION. What each agent's step does to the block (00_scope.md R5): the host's operation through the decoder,
the host's reads, and the events. -/

namespace Sys2Proof.Machine

/-- The host issues one operation: an illegal op word raises ILLEGAL before any state is read, every other one
runs its operation (30_encoding.md R75, 60_exceptions.md R232). The length of DBYTES is not checked (log 8). -/
def runRequest (q : OpRequest) (s : State) : Result :=
  match decode q with
  | .ok i => exec i s
  | .error _ => raiseOpError .illegal s

/-- One step of one agent (00_scope.md R5). -/
def runEvent (e : Event) (s : State) : Result :=
  match e with
  | .op q => runRequest q s
  | .rdreg n => evRdreg n s
  | .rdbuf i => evRdbuf i s
  | .rx b => evRx b s
  | .tx => evTx s
  | .timeout => evTimeout s
  | .reset => evReset s

/-- The next agent step, if any is still to come, and the state without it (log 1). -/
def takeEvent (s : State) : Option (Event × State) :=
  match s.pending with
  | [] => none
  | e :: rest => some (e, { s with pending := rest })

/-- The state with one operation presented by the host as the very next agent step (log 10). -/
def presentNext (q : OpRequest) (s : State) : State := { s with pending := .op q :: s.pending }

end Sys2Proof.Machine
end

