-- ==== Sys2Proof/Machine/Step.lean ====
section
/-! DEFINITION. One step of the whole system: the next agent step of the schedule. With none to come the block waits
"for operations and events" (70_reset_and_hazards.md R261; log 2). -/

namespace Sys2Proof.Machine

/-- One step: the next agent's, or waiting (00_scope.md R5, 70_reset_and_hazards.md R261). -/
def step (s : State) : Host.Outcome State Fault Refusal :=
  match takeEvent s with
  | none => .next s
  | some (e, t) => runEvent e t

/-- The state in which the host presents this op word, with DWORD = 0 and DBYTES = [], as the very next step
(30_encoding.md R70, R87; log 10). -/
def State.withFetchWord (s : State) (nbits w : Nat) : State := presentNext (tableRequest nbits w) s

end Sys2Proof.Machine
end

