-- ==== Sys2Proof/Safety.lean ====
section
/-! DEFINITION. What counts as a safe state: the invariant of 10_state.md R40, with what the rules it is derived from
also keep (the parameters' ranges, the buffer's canonical form, the accept list's length, 16-bit counts). In such a
state no step stops (60_exceptions.md R235). Each clause is decidable, so that concrete states can be checked. -/

namespace Sys2Proof.Machine

/-- The pattern p stands in s at index i: i + |p| ≤ |s| and s[i..i+|p|) = p (00_scope.md R16). -/
abbrev StandsAt (s p : List Byte) (i : Nat) : Prop :=
  i + p.length ≤ s.length ∧ (s.drop i).take p.length = p

/-- i is the least index at or above k at which p stands in s (00_scope.md R16, `find`). -/
abbrev FirstAt (s p : List Byte) (k i : Nat) : Prop :=
  k ≤ i ∧ StandsAt s p i ∧ ∀ j, k ≤ j → StandsAt s p j → i ≤ j

/-- IBUF[0..ILEN) is defined contents within the buffer: ILEN ≤ IBUF_SIZE, every index below ILEN is listed, and
the cells are in canonical form (10_state.md R24, R40). -/
abbrev BufferInv (s : State) : Prop :=
  s.ibuf.wf ∧ s.ilen ≤ s.params.ibufSize ∧ ∀ i, i < s.ilen → (s.ibuf.read? i).isSome = true

/-- IBUF[0..ILEN) is this sequence of bytes (10_state.md R24). -/
abbrev BufferHolds (s : State) (bytes : List Byte) : Prop := s.ibuf.readMany? 0 s.ilen = some bytes

/-- The bytes of IBUF[0..ILEN); an index with no listed byte gives none. -/
abbrev bufferBytes (s : State) : List Byte := (s.ibuf.readMany? 0 s.ilen).getD []

/-- What an active or ended capture says of the other state (10_state.md R40, second to fifth clause). -/
abbrev CaptureInv (s : State) : Prop :=
  (s.capstat.active = true →
    s.capstat.ended = .none ∧ s.extstat.state = .none ∧ s.cmdstat.res = .none ∧
    s.ilen < s.params.ibufSize ∧
    (4 ≤ s.ilen → find (bufferBytes s) (tailOf s.capstat.pair) 0 = none)) ∧
  (s.capstat.active = false → s.capstat.ended = .none → s.ilen = 0)

/-- The positions EXTRACT and CMD_PARSE left lie within the buffer (10_state.md R40, sixth and seventh clause). -/
abbrev ViewInv (s : State) : Prop :=
  (s.extstat.state = .found → s.extStart = s.extHpos + 4 ∧ s.extStart + s.extLen + 4 ≤ s.ilen) ∧
  (s.cmdstat.res = .ok → s.cmdVstart + s.cmdVlen ≤ s.ilen)

/-- OBUF_COUNT ≤ OBUF_CAP, and the accept list has NACC entries (10_state.md R40, R35). -/
abbrev QueueInv (s : State) : Prop :=
  s.obuf.length ≤ s.params.obufCap ∧ s.acc.length = s.params.nacc

/-- Every position and count register is below 2^16 (00_scope.md R10). -/
abbrev WidthInv (s : State) : Prop :=
  s.extHpos < 65536 ∧ s.extStart < 65536 ∧ s.extLen < 65536 ∧ s.cmdVstart < 65536 ∧ s.cmdVlen < 65536

/-- The invariant: "the following hold in every reachable state" (10_state.md R40). -/
abbrev Inv (s : State) : Prop :=
  s.params.Valid ∧ BufferInv s ∧ CaptureInv s ∧ ViewInv s ∧ QueueInv s ∧ WidthInv s

/-- Two states that differ at most in the IBUF bytes at and above ILEN, which "are never visible"
(10_state.md R24, R41). -/
def SameVisible (s t : State) : Prop :=
  t = { s with ibuf := t.ibuf } ∧ ∀ i, i < s.ilen → t.ibuf.read? i = s.ibuf.read? i

/-- n steps, stopping at the first that stops. -/
def runSteps : Nat → State → Result
  | 0, s => .next s
  | n + 1, s =>
    match step s with
    | .next t => runSteps n t
    | .fault f => .fault f
    | .refused r => .refused r

/-- The causes of the operation errors, from the table of 60_exceptions.md R231, each read off the operation and
the state it meets. ILLEGAL has no cause here: the op word alone decides it, before there is an operation. -/
def ErrorCause (i : Instr) (s : State) : OpErr → Prop
  | .ok => False
  | .illegal => False
  | .badIndex => ∃ idx valid code, i = .accWr idx valid code ∧ s.params.nacc ≤ idx.toNat
  | .busy =>
    (((∃ p, i = .capArm p) ∨ (∃ bytes, i = .ibufLoad bytes)) ∧ s.capstat.active = true) ∨
    (((∃ w v, i = .encode w v) ∨ (∃ w v, i = .send w v)) ∧ (s.obuf ≠ [] ∨ s.capstat.active = true))
  | .notReady =>
    (((∃ p, i = .extract p) ∨ (∃ a, i = .decodeStatus a)) ∧ s.capstat.active = true) ∨
    ((i = .decodeReport ∨ i = .cmdParse) ∧ s.extstat.state = .none)
  | .tooLong =>
    (∃ bytes, i = .ibufLoad bytes ∧ s.params.ibufSize < bytes.length) ∨
    (∃ w v, (i = .encode w v ∨ i = .send w v) ∧ s.params.vmax < v.length)

/-- The registers an operation may change besides OPERR: the "written by" column of the register map, read row by
row (10_state.md R37). -/
def operationWrites : Instr → List Nat
  | .nop => []
  | .capClear => [0x01, 0x02, 0x03, 0x0E]
  | .capArm _ => [0x01, 0x02, 0x03, 0x0E]
  | .ibufLoad _ => [0x01, 0x02, 0x03, 0x0E]
  | .extract _ => [0x03, 0x04, 0x05, 0x06]
  | .decodeReport => [0x07, 0x08, 0x09, 0x0A, 0x0B, 0x0C, 0x0D]
  | .cmdParse => [0x0E, 0x0F, 0x10, 0x11, 0x12]
  | .encode _ _ => [0x15]
  | .send _ _ => [0x01, 0x02, 0x03, 0x0E, 0x15]
  | .decodeStatus _ => [0x13, 0x14]
  | .accWr idx _ _ => [0x19, 0x20 + idx.toNat]
  | .txFlush => [0x15]

/-- The agent step may change register number n: the "written by" column of the register map and, for reset, every
register but the configuration registers (10_state.md R36, R37). -/
def MayWrite (e : Event) (n : Nat) : Prop :=
  match e with
  | .op q =>
    n = 0x00 ∨
    match decode q with
    | .ok i => n ∈ operationWrites i
    | .error _ => False
  | .rdreg _ => False
  | .rdbuf _ => False
  | .rx _ => n ∈ [0x01, 0x02, 0x03, 0x0E]
  | .tx => n = 0x15
  | .timeout => n = 0x01
  | .reset => n ∉ [0x16, 0x17, 0x18]

/-- The agent step is the operation i, presented with a legal op word. -/
def Issues (e : Event) (i : Instr) : Prop := ∃ q, e = .op q ∧ decode q = .ok i

/-- What the result registers say of each other: REP_RAWSTATE and TSTATE are of the same report, CREASON is set
exactly when the last DECODE_REPORT was CORRUPT, and ST_CODE is 0 unless a code was read (10_state.md R27, R28,
R31, R32). -/
abbrev ResultInv (s : State) : Prop :=
  s.repstat.tstate = tstateOf s.repRawState ∧
  (s.repstat.creason = .none ↔ s.repstat.res ≠ .corrupt) ∧
  (s.ststat.res ≠ .success → s.ststat.res ≠ .failure → s.stCode = 0#16)

end Sys2Proof.Machine
end

