-- ==== Sys2Proof/Certificates/Slice0/Obligations.lean ====
section
/-! DEFINITION. The statements for the provers: encodings, the step, errors, the twelve operations, the events and read
ports, then the rules about the whole machine. -/

open Sys2Proof Sys2Proof.Machine

/-! ### Encodings -/

/-- Every operation the control port can carry is read back from its own triple; and what the decoder reads from a
triple encodes to the same op word, with the operands the operation uses (30_encoding.md R70–R73, R87). -/
def Obligations.DecodeInvertsEncode : Prop :=
  (∀ i : Instr, i.wellFormed = true → decode (encode i) = .ok i ∧ (encode i).presentable = true) ∧
  (∀ (q : OpRequest) (i : Instr), decode q = .ok i →
    (encode i).opw = q.opw ∧ ((encode i).dword = q.dword ∨ (encode i).dword = 0#16) ∧
    ((encode i).dbytes = q.dbytes ∨ (encode i).dbytes = []) ∧ (q.presentable = true → i.wellFormed = true))

/-- Every op word either selects exactly one row of the opcode map, and the decoder gives an operation of that row,
or selects none and is illegal; exactly 47 op words are legal, as many for each row as the rule says
(30_encoding.md R74). -/
def Obligations.OpWordDecodingIsTotalAndUnambiguous : Prop :=
  (∀ q : OpRequest,
    (∃ i r, decode q = .ok i ∧ r ∈ opRows ∧ r.selects q.opw = true ∧ r.mnemonic = i.mnemonic ∧
      ∀ r' ∈ opRows, r'.selects q.opw = true → r' = r) ∨
    (∃ e, decode q = .error e ∧ ∀ r ∈ opRows, r.selects q.opw = false)) ∧
  (∃ L : List Word, L.Nodup ∧ L.length = 47 ∧
    (∀ q : OpRequest, (∃ i, decode q = .ok i) ↔ q.opw ∈ L) ∧
    opRows.map (fun r => (L.filter r.selects).length) = [1, 1, 2, 1, 2, 1, 1, 1, 1, 3, 32, 1])

/-- The op words that raise ILLEGAL and change nothing else are exactly those with OPC 0xC to 0xF, a reserved bit
set, or ASEL = 3; and NOP is the only operation whose every effect is on OPERR alone (30_encoding.md R75). -/
def Obligations.IllegalOpWordsWriteOnlyOperr : Prop :=
  (∀ (q : OpRequest) (rest : List Event) (s : State), s.pending = .op q :: rest →
    (0xC ≤ q.opw.toNat / 4096 ∨
     (q.opw.toNat / 4096 ∈ [0x0, 0x1, 0x3, 0x5, 0x6, 0x7, 0x8, 0xB] ∧ q.opw.toNat % 4096 ≠ 0) ∨
     (q.opw.toNat / 4096 ∈ [0x2, 0x4] ∧ 2 ≤ q.opw.toNat % 4096) ∨
     (q.opw.toNat / 4096 = 0x9 ∧ 3 ≤ q.opw.toNat % 4096) ∨
     (q.opw.toNat / 4096 = 0xA ∧ 32 ≤ q.opw.toNat % 4096) ↔ ∃ e, decode q = .error e) ∧
    (∀ e, decode q = .error e → step s = .next { s with pending := rest, operr := .illegal })) ∧
  (∀ i : Instr, (∀ s t, exec i s = .next t → t = { s with operr := t.operr }) ↔ i = .nop)

/-- Op words written out from the opcode map decode to their operations, and neighbours of them are illegal
(30_encoding.md R73, R75, R87; 95_test_vectors.md 2.8). -/
def Obligations.OpWordsWrittenOutDecode : Prop :=
  decode ⟨0x0000#16, 0#16, []⟩ = .ok .nop ∧
  decode ⟨0x1000#16, 0#16, []⟩ = .ok .capClear ∧
  decode ⟨0x2001#16, 0#16, []⟩ = .ok (.capArm .command) ∧
  decode ⟨0x4000#16, 0#16, []⟩ = .ok (.extract .report) ∧
  decode ⟨0x8000#16, 0x00FF#16, [1#8, 0#8]⟩ = .ok (.send 0x00FF#16 [1#8, 0#8]) ∧
  decode ⟨0x9002#16, 0#16, []⟩ = .ok (.decodeStatus .user) ∧
  decode ⟨0xA01F#16, 0xBEEF#16, []⟩ = .ok (.accWr 15#4 true 0xBEEF#16) ∧
  decode ⟨0x9003#16, 0#16, []⟩ = .error .reservedAsel ∧
  decode ⟨0xA020#16, 0#16, []⟩ = .error .reservedBits ∧
  decode ⟨0xC000#16, 0#16, []⟩ = .error .reservedOpcode

/-- DWORD is the command word of ENCODE and SEND and the accept code of ACC_WR; DBYTES is the value of ENCODE and
SEND and the bytes of IBUF_LOAD; every other operation ignores both (30_encoding.md R71). -/
def Obligations.UnusedOperandsAreIgnored : Prop :=
  (∀ (d : Word) (b : List Byte),
    decode ⟨0x3000#16, d, b⟩ = .ok (.ibufLoad b) ∧
    decode ⟨0x7000#16, d, b⟩ = .ok (.encode d b) ∧
    decode ⟨0x8000#16, d, b⟩ = .ok (.send d b)) ∧
  (∀ (idx : BitVec 4) (valid : Bool) (d : Word) (b : List Byte),
    decode ⟨BitVec.ofNat 16 (0xA000 + 16 * valid.toNat + idx.toNat), d, b⟩ = .ok (.accWr idx valid d)) ∧
  (∀ (w d d' : Word) (b b' : List Byte), w.toNat / 4096 ∉ [0x3, 0x7, 0x8] →
    (w.toNat / 4096 ≠ 0xA ∨ d = d') → decode ⟨w, d, b⟩ = decode ⟨w, d', b'⟩) ∧
  (∀ (d d' : Word) (b : List Byte), decode ⟨0x3000#16, d, b⟩ = decode ⟨0x3000#16, d', b⟩)

/-! ### The step -/

/-- When the next agent step is an operation with a legal op word, the step runs that operation; with no agent step
to come the block waits (00_scope.md R5; 30_encoding.md R70). That it waits is the model's choice (log 2). -/
def Obligations.StepRunsTheDecodedOperation : Prop :=
  (∀ (s : State) (q : OpRequest) (rest : List Event) (i : Instr), s.pending = .op q :: rest →
    decode q = .ok i → step s = exec i { s with pending := rest }) ∧
  (∀ (s : State) (i : Instr) (rest : List Event), s.pending = .op (encode i) :: rest →
    step s = exec i { s with pending := rest }) ∧
  (∀ s : State, s.pending = [] → step s = .next s)

/-! ### Operation errors -/

/-- An operation has all of its effects with OPERR = 0, or changes nothing but OPERR; and one that some error cause
applies to, or whose op word is illegal, is rejected (60_exceptions.md R233). -/
def Obligations.RejectedOperationsChangeOnlyOperr : Prop :=
  (∀ (q : OpRequest) (s t : State), runRequest q s = .next t → t.operr = .ok ∨ t = { s with operr := t.operr }) ∧
  (∀ (q : OpRequest) (e : DecodeError) (s : State), decode q = .error e →
    runRequest q s = .next { s with operr := .illegal }) ∧
  (∀ (i : Instr) (c : OpErr) (s : State), ErrorCause i s c →
    ∃ c', c' ≠ .ok ∧ exec i s = .next { s with operr := c' })

/-- The error codes are 0 to 5 as the table lists them. Which error an operation reports: a cause of it applies, and no cause that comes before it in the order
ILLEGAL, BAD_INDEX, BUSY, NOT_READY, TOO_LONG does; with no cause at all it reports OK. ILLEGAL comes first and from
the op word alone (60_exceptions.md R231, R232). -/
def Obligations.ErrorsFollowTheTableInPriorityOrder : Prop :=
  ([OpErr.ok, .illegal, .badIndex, .busy, .notReady, .tooLong].map (fun c => (operrCode c).toNat) =
    [0, 1, 2, 3, 4, 5]) ∧
  (∀ (i : Instr) (s t : State), exec i s = .next t →
    (t.operr = .ok ∧ ∀ c, ¬ ErrorCause i s c) ∨
    (t.operr = .badIndex ∧ ErrorCause i s .badIndex) ∨
    (t.operr = .busy ∧ ErrorCause i s .busy ∧ ¬ ErrorCause i s .badIndex) ∨
    (t.operr = .notReady ∧ ErrorCause i s .notReady ∧ ¬ ErrorCause i s .badIndex ∧ ¬ ErrorCause i s .busy) ∨
    (t.operr = .tooLong ∧ ErrorCause i s .tooLong ∧ ¬ ErrorCause i s .badIndex ∧ ¬ ErrorCause i s .busy ∧
      ¬ ErrorCause i s .notReady)) ∧
  (∀ (q : OpRequest) (s t : State), runRequest q s = .next t →
    (t.operr = .illegal ↔ ∃ e, decode q = .error e))

/-! ### The twelve operations -/

/-- NOP sets OPERR to 0 and changes nothing else; the op words 0x0001 to 0x0FFF are ILLEGAL (43_control.md R220). -/
def Obligations.NopClearsOnlyTheErrorCode : Prop :=
  opWord .nop = 0x0000#16 ∧
  (∀ s : State, exec .nop s = .next { s with operr := .ok }) ∧
  (∀ (w d : Word) (b : List Byte) (s : State), 0x0001 ≤ w.toNat → w.toNat ≤ 0x0FFF →
    runRequest ⟨w, d, b⟩ s = .next { s with operr := .illegal })

/-- CAP_CLEAR empties the buffer, ends any capture with END = NONE, clears RXLOST, keeps PAIR, and leaves OBUF and
every other register alone, in every state; the op words 0x1001 to 0x1FFF are ILLEGAL
(40_frame_extractor.md R102). -/
def Obligations.CapClearEmptiesTheBuffer : Prop :=
  opWord .capClear = 0x1000#16 ∧
  (∀ (w d : Word) (b : List Byte) (s : State), 0x1001 ≤ w.toNat → w.toNat ≤ 0x1FFF →
    runRequest ⟨w, d, b⟩ s = .next { s with operr := .illegal }) ∧
  ∀ s : State, exec .capClear s = .next { s with
    ilen := 0
    capstat := { active := false, pair := s.capstat.pair, ended := .none, rxlost := false }
    extstat := { s.extstat with state := .none }
    cmdstat := { s.cmdstat with res := .none }
    operr := .ok }

/-- CAP_ARM p arms a capture for p on an empty buffer; while one is active it is BUSY and leaves the capture
untouched (40_frame_extractor.md R103). -/
def Obligations.CapArmStartsACapture : Prop :=
  (opWord (.capArm .report) = 0x2000#16 ∧ opWord (.capArm .command) = 0x2001#16) ∧
  ∀ (p : Pair) (s : State),
    (s.capstat.active = false → exec (.capArm p) s = .next { s with
      ilen := 0
      capstat := { active := true, pair := p, ended := .none, rxlost := false }
      extstat := { s.extstat with state := .none }
      cmdstat := { s.cmdstat with res := .none }
      operr := .ok }) ∧
    (s.capstat.active = true → exec (.capArm p) s = .next { s with operr := .busy })

/-- IBUF_LOAD replaces the buffer's contents: the loaded bytes stand at IBUF[0..), every other cell keeps its byte,
ILEN is their number and END is LOADED. BUSY comes before TOO_LONG (40_frame_extractor.md R104). -/
def Obligations.IbufLoadReplacesTheBuffer : Prop :=
  (∀ bytes : List Byte, opWord (.ibufLoad bytes) = 0x3000#16) ∧
  ∀ (bytes : List Byte) (s : State),
    (s.capstat.active = true → exec (.ibufLoad bytes) s = .next { s with operr := .busy }) ∧
    (s.capstat.active = false → s.params.ibufSize < bytes.length →
      exec (.ibufLoad bytes) s = .next { s with operr := .tooLong }) ∧
    (s.capstat.active = false → bytes.length ≤ s.params.ibufSize →
      ∃ t, exec (.ibufLoad bytes) s = .next t ∧
        t = { s with
          ibuf := t.ibuf
          ilen := bytes.length
          capstat := { active := false, pair := s.capstat.pair, ended := .loaded, rxlost := false }
          extstat := { s.extstat with state := .none }
          cmdstat := { s.cmdstat with res := .none }
          operr := .ok } ∧
        BufferHolds t bytes ∧
        (∀ a, bytes.length ≤ a → t.ibuf.read? a = s.ibuf.read? a))

/-- EXTRACT p finds the body strictly between the first header and the first tail after it; with no header, or no
tail after it, it reports NO_HEADER or NO_TAIL; LEADTAIL tells whether a tail stands before the header; IBUF, ILEN
and CAPSTAT are unchanged; NOT_READY while a capture is active (40_frame_extractor.md R108). -/
def Obligations.ExtractFindsTheFirstFrame : Prop :=
  (opWord (.extract .report) = 0x4000#16 ∧ opWord (.extract .command) = 0x4001#16) ∧
  (∀ (p : Pair) (s : State), s.capstat.active = true → exec (.extract p) s = .next { s with operr := .notReady }) ∧
  (∀ (p : Pair) (s : State) (bytes : List Byte), BufferHolds s bytes → s.capstat.active = false →
    ∃ t, exec (.extract p) s = .next t ∧
      t = { s with
        extstat := t.extstat, extHpos := t.extHpos, extStart := t.extStart, extLen := t.extLen, operr := .ok } ∧
      t.extstat.pair = p ∧
      ((∀ i, ¬ StandsAt bytes (hdr p) i) →
        t.extstat.state = .noHeader ∧
        (t.extstat.leadTail = true ↔ ∃ i, StandsAt bytes (tailOf p) i) ∧
        t.extHpos = 0 ∧ t.extStart = 0 ∧ t.extLen = 0) ∧
      (∀ h, FirstAt bytes (hdr p) 0 h →
        (t.extstat.leadTail = true ↔ ∃ i, i < h ∧ StandsAt bytes (tailOf p) i) ∧
        t.extHpos = h ∧
        ((∀ i, h + 4 ≤ i → ¬ StandsAt bytes (tailOf p) i) →
          t.extstat.state = .noTail ∧ t.extStart = 0 ∧ t.extLen = 0) ∧
        (∀ j, FirstAt bytes (tailOf p) (h + 4) j →
          t.extstat.state = .found ∧ t.extStart = h + 4 ∧ t.extLen = j - (h + 4))))

/-- DECODE_REPORT decodes a found 15-byte report body into the report registers, the distances without their sign
bits; every other extraction gives CORRUPT with its reason and keeps the report values and TSTATE; NOT_READY when
there is no extraction (41_report_decoder.md R144). -/
def Obligations.DecodeReportDeliversTheTargetReport : Prop :=
  opWord .decodeReport = 0x5000#16 ∧
  (∀ s : State, s.extstat.state = .none → exec .decodeReport s = .next { s with operr := .notReady }) ∧
  (∀ s : State, s.extstat.state = .noHeader ∨ s.extstat.state = .noTail →
    exec .decodeReport s =
      .next { s with repstat := { s.repstat with res := .corrupt, creason := .noFrame }, operr := .ok }) ∧
  (∀ s : State, s.extstat.state = .found → s.extstat.pair = .command →
    exec .decodeReport s =
      .next { s with repstat := { s.repstat with res := .corrupt, creason := .wrongPair }, operr := .ok }) ∧
  (∀ s : State, s.extstat.state = .found → s.extstat.pair = .report → s.extLen ≠ 15 →
    exec .decodeReport s =
      .next { s with repstat := { s.repstat with res := .corrupt, creason := .badLength }, operr := .ok }) ∧
  (∀ (s : State) (p0 p1 p2 p3 p4 p5 p6 p7 p8 : Byte),
    s.extstat.state = .found → s.extstat.pair = .report → s.extLen = 15 → s.extStart + 13 ≤ s.ilen →
    s.ibuf.readMany? (s.extStart + 4) 9 = some [p0, p1, p2, p3, p4, p5, p6, p7, p8] →
    exec .decodeReport s = .next { s with
      repRawState := p0
      repMdist := BitVec.ofNat 15 ((p1.toNat + 256 * p2.toNat) % 32768)
      repMenergy := p3
      repSdist := BitVec.ofNat 15 ((p4.toNat + 256 * p5.toNat) % 32768)
      repSenergy := p6
      repDist := BitVec.ofNat 15 ((p7.toNat + 256 * p8.toNat) % 32768)
      repstat := { res := .valid, tstate := tstateOf p0, creason := .none }
      operr := .ok })

/-- CMD_PARSE splits a found command body of at least 4 bytes into length field, command word and value span, and
sets LENMISMATCH iff the declared length differs from the body's length minus 2; a shorter body is SHORT, any other
extraction NO_FRAME, and both keep the CMD registers; NOT_READY when there is no extraction
(42_command_codec.md R176). -/
def Obligations.CmdParseSplitsTheCommandBody : Prop :=
  opWord .cmdParse = 0x6000#16 ∧
  (∀ s : State, s.extstat.state = .none → exec .cmdParse s = .next { s with operr := .notReady }) ∧
  (∀ s : State, s.extstat.state = .noHeader ∨ s.extstat.state = .noTail ∨
      (s.extstat.state = .found ∧ s.extstat.pair = .report) →
    exec .cmdParse s = .next { s with cmdstat := { res := .noFrame, lenMismatch := false }, operr := .ok }) ∧
  (∀ s : State, s.extstat.state = .found → s.extstat.pair = .command → s.extLen < 4 →
    exec .cmdParse s = .next { s with cmdstat := { res := .short, lenMismatch := false }, operr := .ok }) ∧
  (∀ (s : State) (b0 b1 b2 b3 : Byte) (value : List Byte),
    s.extstat.state = .found → s.extstat.pair = .command →
    s.extLen = 4 + value.length → s.extStart + s.extLen ≤ s.ilen →
    s.ibuf.readMany? s.extStart s.extLen = some (b0 :: b1 :: b2 :: b3 :: value) →
    exec .cmdParse s = .next { s with
      cmdLenf := BitVec.ofNat 16 (b0.toNat + 256 * b1.toNat)
      cmdWord := BitVec.ofNat 16 (b2.toNat + 256 * b3.toNat)
      cmdVstart := s.extStart + 4
      cmdVlen := value.length
      cmdstat := { res := .ok, lenMismatch := decide (b0.toNat + 256 * b1.toNat ≠ 2 + value.length) }
      operr := .ok })

/-- ENCODE w, v queues the command frame for w and v on an empty OBUF and changes nothing else; BUSY while OBUF
holds bytes or a capture is active, then TOO_LONG for a value beyond VMAX (42_command_codec.md R172). -/
def Obligations.EncodeQueuesTheCommandFrame : Prop :=
  (∀ (w : Word) (v : List Byte), opWord (.encode w v) = 0x7000#16) ∧
  ∀ (w : Word) (v : List Byte) (s : State),
    (s.obuf ≠ [] ∨ s.capstat.active = true → exec (.encode w v) s = .next { s with operr := .busy }) ∧
    (s.obuf = [] → s.capstat.active = false → s.params.vmax < v.length →
      exec (.encode w v) s = .next { s with operr := .tooLong }) ∧
    (s.obuf = [] → s.capstat.active = false → v.length ≤ s.params.vmax →
      exec (.encode w v) s = .next { s with obuf := cmdframe w v, operr := .ok } ∧
      (cmdframe w v).length = 12 + v.length)

/-- SEND w, v queues the command frame and arms a command capture on an empty buffer in the same step, keeping
STSTAT and ST_CODE; its errors are those of ENCODE, and a rejected SEND queues and arms nothing
(42_command_codec.md R173). -/
def Obligations.SendQueuesAndArms : Prop :=
  (∀ (w : Word) (v : List Byte), opWord (.send w v) = 0x8000#16) ∧
  ∀ (w : Word) (v : List Byte) (s : State),
    (s.obuf ≠ [] ∨ s.capstat.active = true → exec (.send w v) s = .next { s with operr := .busy }) ∧
    (s.obuf = [] → s.capstat.active = false → s.params.vmax < v.length →
      exec (.send w v) s = .next { s with operr := .tooLong }) ∧
    (s.obuf = [] → s.capstat.active = false → v.length ≤ s.params.vmax →
      exec (.send w v) s = .next { s with
        obuf := cmdframe w v
        ilen := 0
        capstat := { active := true, pair := .command, ended := .none, rxlost := false }
        extstat := { s.extstat with state := .none }
        cmdstat := { s.cmdstat with res := .none }
        operr := .ok } ∧
      (cmdframe w v).length = 12 + v.length)

/-- TX_FLUSH empties OBUF and changes nothing else, in every state; an active capture goes on; the op words 0xB001
to 0xBFFF are ILLEGAL (42_command_codec.md R175). -/
def Obligations.TxFlushDiscardsTheQueue : Prop :=
  (∀ s : State, exec .txFlush s = .next { s with obuf := [], operr := .ok }) ∧ opWord .txFlush = 0xB000#16 ∧
  (∀ (w d : Word) (b : List Byte) (s : State), 0xB001 ≤ w.toNat → w.toNat ≤ 0xBFFF →
    runRequest ⟨w, d, b⟩ s = .next { s with operr := .illegal })

/-- DECODE_STATUS a judges the raw buffer: TIMEOUT, then OVERFLOW, then TRUNCATED below 10 bytes, each with
ST_CODE = 0; otherwise SUCCESS iff the code at offsets 8–9 is in the accepted set of a, and the code is kept. It
writes STSTAT, ST_CODE and OPERR only; NOT_READY while a capture is active; a = 3 is ILLEGAL
(42_command_codec.md R179). -/
def Obligations.DecodeStatusJudgesTheResponse : Prop :=
  (opWord (.decodeStatus .default) = 0x9000#16 ∧ opWord (.decodeStatus .enterConfig) = 0x9001#16 ∧
    opWord (.decodeStatus .user) = 0x9002#16) ∧
  (∀ (d : Word) (b : List Byte) (s : State), runRequest ⟨0x9003#16, d, b⟩ s = .next { s with operr := .illegal }) ∧
  ∀ (a : AccSel) (s : State),
    (s.capstat.active = true → exec (.decodeStatus a) s = .next { s with operr := .notReady }) ∧
    (s.capstat.active = false → s.capstat.ended = .timeout →
      exec (.decodeStatus a) s = .next { s with ststat := ⟨.timeout, a⟩, stCode := 0#16, operr := .ok }) ∧
    (s.capstat.active = false → s.capstat.ended = .full →
      exec (.decodeStatus a) s = .next { s with ststat := ⟨.overflow, a⟩, stCode := 0#16, operr := .ok }) ∧
    (s.capstat.active = false → s.capstat.ended ≠ .timeout → s.capstat.ended ≠ .full → s.ilen < 10 →
      exec (.decodeStatus a) s = .next { s with ststat := ⟨.truncated, a⟩, stCode := 0#16, operr := .ok }) ∧
    (∀ b8 b9 : Byte, s.capstat.active = false → s.capstat.ended ≠ .timeout → s.capstat.ended ≠ .full →
      10 ≤ s.ilen → s.ibuf.read? 8 = some b8 → s.ibuf.read? 9 = some b9 →
      ∃ r c, exec (.decodeStatus a) s = .next { s with ststat := ⟨r, a⟩, stCode := c, operr := .ok } ∧
        c = BitVec.ofNat 16 (b8.toNat + 256 * b9.toNat) ∧
        ((c ∈ accset a s ∧ r = .success) ∨ (c ∉ accset a s ∧ r = .failure)))

/-- ACC_WR writes the valid bit and the code of the entry at its index and leaves every other entry and everything
else alone; BAD_INDEX beyond the list; op words with bits [11:5] not zero are ILLEGAL (42_command_codec.md R180).
The premise that the list has NACC entries is
kept by every step (`InvariantIsKeptByEveryStep`). -/
def Obligations.AccWrWritesOneEntry : Prop :=
  (∀ (idx : BitVec 4) (valid : Bool) (code : Word),
    (opWord (.accWr idx valid code)).toNat = 0xA000 + 16 * valid.toNat + idx.toNat) ∧
  (∀ (w d : Word) (b : List Byte) (s : State), 0xA020 ≤ w.toNat → w.toNat ≤ 0xAFFF →
    runRequest ⟨w, d, b⟩ s = .next { s with operr := .illegal }) ∧
  ∀ (idx : BitVec 4) (valid : Bool) (code : Word) (s : State),
    (s.params.nacc ≤ idx.toNat → exec (.accWr idx valid code) s = .next { s with operr := .badIndex }) ∧
    (idx.toNat < s.params.nacc → s.acc.length = s.params.nacc →
      ∃ t, exec (.accWr idx valid code) s = .next t ∧ t = { s with acc := t.acc, operr := .ok } ∧
        t.acc.length = s.acc.length ∧ t.acc[idx.toNat]? = some { valid := valid, code := code } ∧
        ∀ i, i ≠ idx.toNat → t.acc[i]? = s.acc[i]?)

/-! ### The functions the operations are made of -/

/-- The delimiters in wire order; header and tail of a pair share no byte, each has four distinct bytes, and no two
occurrences of them overlap: not a header and a tail of one pair, nor two headers, nor two tails
(30_encoding.md R78; 40_frame_extractor.md R110). -/
def Obligations.DelimitersNeverOverlap : Prop :=
  (∀ p : Pair, (∀ b ∈ hdr p, b ∉ tailOf p) ∧ (hdr p).Nodup ∧ (tailOf p).Nodup) ∧
  (hdr .report = [0xF4#8, 0xF3#8, 0xF2#8, 0xF1#8] ∧ tailOf .report = [0xF8#8, 0xF7#8, 0xF6#8, 0xF5#8] ∧
    hdr .command = [0xFD#8, 0xFC#8, 0xFB#8, 0xFA#8] ∧ tailOf .command = [0x04#8, 0x03#8, 0x02#8, 0x01#8]) ∧
  (∀ (p : Pair) (s : List Byte) (h t : Nat), StandsAt s (hdr p) h → StandsAt s (tailOf p) t →
    h + 4 ≤ t ∨ t + 4 ≤ h) ∧
  (∀ (p : Pair) (s : List Byte) (i j : Nat), i < j →
    (StandsAt s (hdr p) i → StandsAt s (hdr p) j → i + 4 ≤ j) ∧
    (StandsAt s (tailOf p) i → StandsAt s (tailOf p) j → i + 4 ≤ j))

/-- For every 16-bit pattern the sign-magnitude algorithm gives the low 15 bits, and the sign bit makes no
difference (41_report_decoder.md R141, R146). -/
def Obligations.SignMagnitudeIsTheLowFifteenBits : Prop :=
  ∀ u : Word, (smag16 u).zeroExtend 16 = u &&& 0x7FFF#16 ∧ smag16 (u ^^^ 0x8000#16) = smag16 u

/-- The target state of a state byte: 0 to 3 are the four named states, every other byte is Unknown, and the TSTATE
code is the byte for 0 to 3 and 4 otherwise (41_report_decoder.md R142; 30_encoding.md R86). -/
def Obligations.TargetStateMapIsTotal : Prop :=
  tstateOf 0#8 = .noTarget ∧ tstateOf 1#8 = .movingTarget ∧ tstateOf 2#8 = .staticTarget ∧
  tstateOf 3#8 = .bothTargets ∧
  ∀ b : Byte, (4 ≤ b.toNat → tstateOf b = .unknown) ∧ (tstateCode (tstateOf b)).toNat = min b.toNat 4

/-- A 16-bit field is its low byte first: `le16` assembles it, `lo8` and `hi8` split it, and the two are inverse
(00_scope.md R13). -/
def Obligations.LittleEndianAssembly : Prop :=
  (∀ b0 b1 : Byte, (le16 b0 b1).toNat = b0.toNat + 256 * b1.toNat) ∧
  (∀ v : Word, le16bytes v = [BitVec.ofNat 8 (v.toNat % 256), BitVec.ofNat 8 (v.toNat / 256)] ∧
    le16 (lo8 v) (hi8 v) = v)

/-- The command frame byte by byte, its length, and its length field, which is at least 2 and never wraps for a
value of at most VMAX bytes (42_command_codec.md R170, R171). -/
def Obligations.CommandFrameLayout : Prop :=
  ∀ (w : Word) (v : List Byte), v.length ≤ 65533 →
    cmdframe w v = [0xFD#8, 0xFC#8, 0xFB#8, 0xFA#8] ++
      [BitVec.ofNat 8 ((2 + v.length) % 256), BitVec.ofNat 8 ((2 + v.length) / 256)] ++
      [BitVec.ofNat 8 (w.toNat % 256), BitVec.ofNat 8 (w.toNat / 256)] ++ v ++
      [0x04#8, 0x03#8, 0x02#8, 0x01#8] ∧
    (cmdframe w v).length = 12 + v.length ∧
    (∀ p : Params, p.Valid → v.length ≤ p.vmax →
      (BitVec.ofNat 16 (2 + v.length)).toNat = 2 + v.length ∧ 2 ≤ 2 + v.length ∧ 2 + v.length ≤ 2 + p.vmax)

/-- The accepted sets: DEFAULT is {0}; ENTER_CONFIG is exactly {0, 128, 32896, 32928}; USER is the codes of the
valid entries of the accept list (42_command_codec.md R177, R178; 10_state.md R35). -/
def Obligations.AcceptedSetsAreExact : Prop :=
  ∀ (c : Word) (s : State),
    (c ∈ accset .default s ↔ c.toNat = 0) ∧
    (c ∈ accset .enterConfig s ↔ c.toNat ∈ [0, 128, 32896, 32928]) ∧
    (c ∈ accset .user s ↔ ∃ i, i < s.params.nacc ∧ ∃ e, s.acc[i]? = some e ∧ e.valid = true ∧ e.code = c)

/-! ### The host's read ports -/

/-- The status registers' fields stand at the bits their tables give them, with the tables' codes
(10_state.md R22, R25, R27, R29, R31, R33). -/
def Obligations.StatusRegisterLayouts : Prop :=
  ([OpErr.ok, .illegal, .badIndex, .busy, .notReady, .tooLong].map (fun c => (operrCode c).toNat) =
      [0, 1, 2, 3, 4, 5] ∧
    [CapEnd.none, .tail, .timeout, .full, .loaded].map (fun c => (capEndCode c).toNat) = [0, 1, 2, 3, 4] ∧
    [ExtState.none, .found, .noHeader, .noTail].map (fun c => (extStateCode c).toNat) = [0, 1, 2, 3] ∧
    [RepRes.none, .valid, .corrupt].map (fun c => (repResCode c).toNat) = [0, 1, 2] ∧
    [CReason.none, .noFrame, .wrongPair, .badLength].map (fun c => (creasonCode c).toNat) = [0, 1, 2, 3] ∧
    [CmdRes.none, .ok, .noFrame, .short].map (fun c => (cmdResCode c).toNat) = [0, 1, 2, 3] ∧
    [StRes.none, .success, .failure, .truncated, .timeout, .overflow].map (fun c => (stResCode c).toNat) =
      [0, 1, 2, 3, 4, 5] ∧
    [AccSel.default, .enterConfig, .user].map (fun c => (aselCode c).toNat) = [0, 1, 2] ∧
    [Pair.report, .command].map (fun c => (pairCode c).toNat) = [0, 1]) ∧
  ∀ s : State,
    (regValue s 0x00#16).toNat = (operrCode s.operr).toNat ∧
    (regValue s 0x01#16).toNat = s.capstat.active.toNat + 2 * (pairCode s.capstat.pair).toNat +
      4 * (capEndCode s.capstat.ended).toNat + 32 * s.capstat.rxlost.toNat ∧
    (regValue s 0x03#16).toNat = (extStateCode s.extstat.state).toNat + 4 * (pairCode s.extstat.pair).toNat +
      8 * s.extstat.leadTail.toNat ∧
    (regValue s 0x07#16).toNat = (repResCode s.repstat.res).toNat + 4 * (tstateCode s.repstat.tstate).toNat +
      32 * (creasonCode s.repstat.creason).toNat ∧
    (regValue s 0x0E#16).toNat = (cmdResCode s.cmdstat.res).toNat + 4 * s.cmdstat.lenMismatch.toNat ∧
    (regValue s 0x13#16).toNat = (stResCode s.ststat.res).toNat + 8 * (aselCode s.ststat.asel).toNat

/-- The value registers of the register map read the fields they are named after: the report fields zero-extended,
the parsed fields and the status code as they stand, the count and position registers the low 16 bits of the model's
natural numbers (log 7), OBUF_COUNT the number of bytes in OBUF (log 12). In a state that meets the invariant the
counts and positions read whole (10_state.md R23, R26, R28, R30, R32, R34, R37). -/
def Obligations.ValueRegistersReadTheirFields : Prop :=
  (∀ s : State,
    (regValue s 0x08#16).toNat = s.repRawState.toNat ∧ (regValue s 0x09#16).toNat = s.repMdist.toNat ∧
    (regValue s 0x0A#16).toNat = s.repMenergy.toNat ∧ (regValue s 0x0B#16).toNat = s.repSdist.toNat ∧
    (regValue s 0x0C#16).toNat = s.repSenergy.toNat ∧ (regValue s 0x0D#16).toNat = s.repDist.toNat ∧
    regValue s 0x0F#16 = s.cmdLenf ∧ regValue s 0x10#16 = s.cmdWord ∧ regValue s 0x14#16 = s.stCode ∧
    (regValue s 0x02#16).toNat = s.ilen % 65536 ∧ (regValue s 0x04#16).toNat = s.extHpos % 65536 ∧
    (regValue s 0x05#16).toNat = s.extStart % 65536 ∧ (regValue s 0x06#16).toNat = s.extLen % 65536 ∧
    (regValue s 0x11#16).toNat = s.cmdVstart % 65536 ∧ (regValue s 0x12#16).toNat = s.cmdVlen % 65536 ∧
    (regValue s 0x15#16).toNat = s.obuf.length % 65536) ∧
  (∀ s : State, Inv s →
    (regValue s 0x02#16).toNat = s.ilen ∧ (regValue s 0x04#16).toNat = s.extHpos ∧
    (regValue s 0x05#16).toNat = s.extStart ∧ (regValue s 0x06#16).toNat = s.extLen ∧
    (regValue s 0x11#16).toNat = s.cmdVstart ∧ (regValue s 0x12#16).toNat = s.cmdVlen ∧
    (regValue s 0x15#16).toNat = s.obuf.length)

/-- Every reserved bit of every register, and every unmapped register number, reads 0 in every state
(10_state.md R38). -/
def Obligations.ReservedBitsAndNumbersReadZero : Prop :=
  ∀ s : State,
    (∀ n : Word, (0x1A ≤ n.toNat ∧ n.toNat ≤ 0x1F) ∨ (0x20 ≤ n.toNat ∧ 0x20 + s.params.nacc ≤ n.toNat) →
      regValue s n = 0#16) ∧
    (regValue s 0x00#16).toNat < 2 ^ 3 ∧ (regValue s 0x01#16).toNat < 2 ^ 6 ∧
    (regValue s 0x03#16).toNat < 2 ^ 4 ∧ (regValue s 0x07#16).toNat < 2 ^ 7 ∧
    (regValue s 0x08#16).toNat < 2 ^ 8 ∧ (regValue s 0x09#16).toNat < 2 ^ 15 ∧
    (regValue s 0x0A#16).toNat < 2 ^ 8 ∧ (regValue s 0x0B#16).toNat < 2 ^ 15 ∧
    (regValue s 0x0C#16).toNat < 2 ^ 8 ∧ (regValue s 0x0D#16).toNat < 2 ^ 15 ∧
    (regValue s 0x0E#16).toNat < 2 ^ 3 ∧ (regValue s 0x13#16).toNat < 2 ^ 5 ∧
    (∀ i, s.params.nacc ≤ i → i < 16 → (regValue s 0x19#16).getLsbD i = false)

/-- The accept list reads back: bit i of ACC_VALID is entry i's valid bit, and register 0x20 + i is its code
(10_state.md R35). -/
def Obligations.AcceptListReadsBack : Prop :=
  ∀ (s : State) (i : Nat) (e : AccEntry), s.params.nacc ≤ 16 → i < s.params.nacc → s.acc[i]? = some e →
    (regValue s 0x19#16).getLsbD i = e.valid ∧ regValue s (BitVec.ofNat 16 (0x20 + i)) = e.code

/-- A register read returns the register's value to the host, 0x0000 for an unmapped number, and changes nothing
else: not OPERR, not the block; and reading twice with no step between gives the same value, at any time
(43_control.md R221). -/
def Obligations.RegisterReadsHaveNoEffect : Prop :=
  (∀ (s : State) (n : Word) (rest : List Event), s.pending = .rdreg n :: rest → s.params.Valid →
    n.toNat ∉ List.range 0x1A → (∀ i, i < s.params.nacc → n.toNat ≠ 0x20 + i) →
    step s = .next { s with pending := rest, hostReads := s.hostReads ++ [.reg n 0x0000#16] }) ∧
  (∀ (s : State) (n : Word) (rest : List Event), s.pending = .rdreg n :: rest →
    step s = .next { s with pending := rest, hostReads := s.hostReads ++ [.reg n (regValue s n)] }) ∧
  (∀ (s : State) (n : Word) (rest : List Event), s.pending = .rdreg n :: .rdreg n :: rest →
    runSteps 2 s = .next { s with
      pending := rest, hostReads := s.hostReads ++ [.reg n (regValue s n), .reg n (regValue s n)] })

/-- An IBUF read returns the byte below ILEN and 0x00 at and above it, at any time, and changes nothing else
(43_control.md R222). -/
def Obligations.BufferReadsStopAtIlen : Prop :=
  ∀ (s : State) (i : Word) (rest : List Event) (bytes : List Byte), s.pending = .rdbuf i :: rest →
    BufferHolds s bytes →
    (∀ b, bytes[i.toNat]? = some b →
      step s = .next { s with pending := rest, hostReads := s.hostReads ++ [.buf i b] }) ∧
    (s.ilen ≤ i.toNat → step s = .next { s with pending := rest, hostReads := s.hostReads ++ [.buf i 0#8] })

/-! ### The events -/

/-- A received byte with no capture active is dropped and sets RXLOST. With one active it is appended at IBUF[ILEN],
every other cell keeping its byte; the capture ends with TAIL when the buffer then ends with the armed pair's tail,
else with FULL when it is then full, else it goes on. Nothing else changes but the invalidated views
(40_frame_extractor.md R105). -/
def Obligations.ReceivedByteIsAppendedOrDropped : Prop :=
  (∀ (s : State) (b : Byte) (rest : List Event), s.pending = .rx b :: rest → s.capstat.active = false →
    step s = .next { s with pending := rest, capstat := { s.capstat with rxlost := true } }) ∧
  (∀ (s : State) (b : Byte) (rest : List Event) (bytes : List Byte), s.pending = .rx b :: rest →
    s.capstat.active = true → BufferHolds s bytes → s.ilen < s.params.ibufSize →
    ∃ t, step s = .next t ∧
      t = { s with
        pending := rest
        ibuf := t.ibuf
        ilen := s.ilen + 1
        extstat := { s.extstat with state := .none }
        cmdstat := { s.cmdstat with res := .none }
        capstat := t.capstat } ∧
      BufferHolds t (bytes ++ [b]) ∧
      (∀ a, a ≠ s.ilen → t.ibuf.read? a = s.ibuf.read? a) ∧
      ((∃ front, bytes ++ [b] = front ++ tailOf s.capstat.pair) →
        t.capstat = { s.capstat with active := false, ended := .tail }) ∧
      ((¬ ∃ front, bytes ++ [b] = front ++ tailOf s.capstat.pair) → s.ilen + 1 = s.params.ibufSize →
        t.capstat = { s.capstat with active := false, ended := .full }) ∧
      ((¬ ∃ front, bytes ++ [b] = front ++ tailOf s.capstat.pair) → s.ilen + 1 ≠ s.params.ibufSize →
        t.capstat = s.capstat))

/-- A timeout ends an active capture with END = TIMEOUT and keeps the bytes; otherwise it has no effect. A timeout
and a byte that completes the tail are resolved by their order (40_frame_extractor.md R106). -/
def Obligations.TimeoutEndsAnActiveCapture : Prop :=
  (∀ (s : State) (rest : List Event), s.pending = .timeout :: rest → s.capstat.active = true →
    step s = .next
      { s with pending := rest, capstat := { s.capstat with active := false, ended := .timeout } }) ∧
  (∀ (s : State) (rest : List Event), s.pending = .timeout :: rest → s.capstat.active = false →
    step s = .next { s with pending := rest }) ∧
  (∀ (s : State) (b : Byte) (rest : List Event) (front : List Byte), s.capstat.active = true →
    s.ilen < s.params.ibufSize → BufferHolds s (front ++ (tailOf s.capstat.pair).take 3) →
    tailOf s.capstat.pair = (tailOf s.capstat.pair).take 3 ++ [b] →
    (s.pending = .rx b :: .timeout :: rest →
      ∃ t, runSteps 2 s = .next t ∧ t.capstat = { s.capstat with active := false, ended := .tail } ∧
        t.ilen = s.ilen + 1) ∧
    (s.pending = .timeout :: .rx b :: rest →
      ∃ t, runSteps 2 s = .next t ∧
        t.capstat = { s.capstat with active := false, ended := .timeout, rxlost := true } ∧ t.ilen = s.ilen))

/-- Each `tx` takes the oldest byte of OBUF to the sink and nothing else changes; n of them take the oldest n bytes
in the order they were queued (42_command_codec.md R174; 20_memory.md R51). -/
def Obligations.QueuedBytesLeaveInOrder : Prop :=
  (∀ (s : State) (b : Byte) (q : List Byte) (rest : List Event), s.pending = .tx :: rest → s.obuf = b :: q →
    step s = .next { s with pending := rest, obuf := q, txStream := s.txStream ++ [b] }) ∧
  (∀ (s : State) (n : Nat) (rest : List Event), s.pending = Event.txs n ++ rest → n ≤ s.obuf.length →
    runSteps n s = .next
      { s with pending := rest, obuf := s.obuf.drop n, txStream := s.txStream ++ s.obuf.take n })

/-- After `reset` every register reads its reset value, the configuration registers their parameters, OBUF is empty
and every accept entry is invalid with code 0; and the state after the first power-up reads the same
(70_reset_and_hazards.md R260, 10_state.md R37). Of IBUF's contents nothing is said: they are unspecified. That OPERR
is among the registers reset sets to 0 (`t.operr = .ok`, register 0x00) is the model's reading of R260 and R37 against
60_exceptions.md R236 (log 14). -/
def Obligations.ResetClearsTheBlock : Prop :=
  ∀ (s : State) (rest : List Event), s.pending = .reset :: rest →
    ∃ t, step s = .next t ∧
      (∀ n : Word, n.toNat ≠ 0x16 → n.toNat ≠ 0x17 → n.toNat ≠ 0x18 → regValue t n = 0#16) ∧
      regValue t 0x16#16 = BitVec.ofNat 16 s.params.ibufSize ∧
      regValue t 0x17#16 = BitVec.ofNat 16 s.params.vmax ∧
      regValue t 0x18#16 = BitVec.ofNat 16 s.params.nacc ∧
      t.params = s.params ∧ t.obuf = [] ∧ t.acc.length = s.params.nacc ∧
      (∀ e ∈ t.acc, e.valid = false ∧ e.code = 0#16) ∧
      t.capstat = ⟨false, .report, .none, false⟩ ∧ t.ilen = 0 ∧
      t.extstat = ⟨.none, .report, false⟩ ∧ t.repstat = ⟨.none, .noTarget, .none⟩ ∧
      t.cmdstat = ⟨.none, false⟩ ∧ t.ststat = ⟨.none, .default⟩ ∧ t.operr = .ok ∧
      (s.params = State.reset.params → (∀ n, regValue State.reset n = regValue t n) ∧
        State.reset.obuf = t.obuf ∧ State.reset.acc = t.acc)

/-- After reset: a received byte is dropped with RXLOST, DECODE_REPORT and CMD_PARSE are NOT_READY, DECODE_STATUS is
TRUNCATED and EXTRACT is NO_HEADER; and no step makes a capture active but CAP_ARM and SEND
(70_reset_and_hazards.md R262). -/
def Obligations.BehaviourRightAfterReset : Prop :=
  (∀ p : Params,
    (∀ b, ∃ t, runEvent (.rx b) (State.resetWith p) = .next t ∧ t.capstat.rxlost = true ∧ t.ilen = 0 ∧
      t.capstat.active = false) ∧
    (∃ t, exec .decodeReport (State.resetWith p) = .next t ∧ t.operr = .notReady) ∧
    (∃ t, exec .cmdParse (State.resetWith p) = .next t ∧ t.operr = .notReady) ∧
    (∀ a, ∃ t, exec (.decodeStatus a) (State.resetWith p) = .next t ∧ t.ststat.res = .truncated ∧ t.operr = .ok) ∧
    (∀ q, ∃ t, exec (.extract q) (State.resetWith p) = .next t ∧ t.extstat.state = .noHeader ∧ t.operr = .ok)) ∧
  (∀ (s t : State) (e : Event) (rest : List Event), s.pending = e :: rest → step s = .next t →
    s.capstat.active = false → t.capstat.active = true →
    (∃ p, Issues e (.capArm p)) ∨ (∃ w v, Issues e (.send w v)))

/-! ### Rules about the whole machine -/

/-- From every state that meets the invariant, every step leads to a state that meets it: ILEN stays within
IBUF_SIZE, an active capture holds no tail and has room for a byte, the positions lie within the buffer, OBUF stays
within its capacity, the cells stay canonical (10_state.md R40). -/
def Obligations.InvariantIsKeptByEveryStep : Prop :=
  ∀ s t : State, Inv s → step s = .next t → Inv t

/-- From every state that meets the invariant a step answers a next state: no error and no outcome stops the block
(60_exceptions.md R235). That a step without an agent to act, or a sink's offer to an empty OBUF, leaves the block
as it is, is the model's choice (logs 2 and 3). -/
def Obligations.NoErrorStopsTheBlock : Prop :=
  ∀ s : State, Inv s → ∃ t, step s = .next t

/-- The agents' side only moves forward: a step uses up exactly the first entry of the schedule, only `tx` adds to
the transmitted stream (the byte it takes from OBUF), and only a host read adds to the host's record. This is the
model's own bookkeeping (logs 1, 3 and 9). -/
def Obligations.AgentsSideMovesForward : Prop :=
  ∀ (s t : State) (e : Event) (rest : List Event), s.pending = e :: rest → step s = .next t →
    t.pending = rest ∧
    (t.txStream = s.txStream ∨ (e = .tx ∧ ∃ b, s.obuf = b :: t.obuf ∧ t.txStream = s.txStream ++ [b])) ∧
    (t.hostReads = s.hostReads ∨ (∃ n, e = .rdreg n ∧ t.hostReads = s.hostReads ++ [.reg n (regValue s n)]) ∨
      (∃ i b, e = .rdbuf i ∧ t.hostReads = s.hostReads ++ [.buf i b]))

/-- The state after reset meets the invariant, for every choice of valid parameters; so does `State.reset`
(10_state.md R40, 70_reset_and_hazards.md R260). -/
def Obligations.ResetMeetsTheInvariant : Prop :=
  (∀ p : Params, p.Valid → Inv (State.resetWith p) ∧ ResultInv (State.resetWith p)) ∧ Inv State.reset

/-- The result registers stay consistent at every step, from every state in which they are: TSTATE is the state of
REP_RAWSTATE, CREASON is set exactly after a CORRUPT, and ST_CODE is 0 unless the result is SUCCESS or FAILURE
(10_state.md R27, R28, R31, R32). -/
def Obligations.ResultRegistersStayConsistent : Prop :=
  ∀ s t : State, ResultInv s → step s = .next t → ResultInv t

/-- The bytes at ILEN and above are never visible: two states that differ only there take the same step, to states
that again differ only there, or stop alike; no register, no read result and no transmitted byte tells them apart
(10_state.md R24, R41). -/
def Obligations.BytesAboveIlenAreNeverVisible : Prop :=
  ∀ s t : State, SameVisible s t →
    (∀ s', step s = .next s' → ∃ t', step t = .next t' ∧ SameVisible s' t' ∧
      ∀ n, regValue s' n = regValue t' n) ∧
    (∀ f, step s = .fault f → step t = .fault f) ∧
    (∀ r, step s = .refused r → step t = .refused r)

/-- A register's value changes only at the operations and events the register map names for it
(10_state.md R37, R39). That reset may write OPERR is the model's reading (log 14). -/
def Obligations.RegistersChangeOnlyAsTheMapSays : Prop :=
  ∀ (s t : State) (e : Event) (rest : List Event) (n : Word), s.pending = e :: rest → step s = .next t →
    regValue t n ≠ regValue s n → MayWrite e n.toNat

/-- The configuration registers report the parameters and never change, at no step, reset included
(10_state.md R36). -/
def Obligations.ConfigurationNeverChanges : Prop :=
  (∀ s t : State, step s = .next t → t.params = s.params) ∧
  (∀ s : State, regValue s 0x16#16 = BitVec.ofNat 16 s.params.ibufSize ∧
    regValue s 0x17#16 = BitVec.ofNat 16 s.params.vmax ∧ regValue s 0x18#16 = BitVec.ofNat 16 s.params.nacc)

/-- Events other than reset, and the host's reads, do not write OPERR (10_state.md R33). That reset does
write it is the model's reading (log 14). -/
def Obligations.EventsDoNotWriteOperr : Prop :=
  ∀ (s t : State) (e : Event) (rest : List Event), s.pending = e :: rest → step s = .next t →
    (∀ q, e ≠ .op q) → e ≠ .reset → t.operr = s.operr

/-- Every step that changes ILEN or a byte of IBUF leaves EXTSTAT.STATE and CMDSTAT.RES at NONE; and
`InvalidateViews()` itself changes nothing but those two fields (40_frame_extractor.md R101). -/
def Obligations.BufferChangesInvalidateTheViews : Prop :=
  (∀ s t : State, step s = .next t → (t.ilen ≠ s.ilen ∨ ∃ a, t.ibuf.read? a ≠ s.ibuf.read? a) →
    t.extstat.state = .none ∧ t.cmdstat.res = .none) ∧
  (∀ s : State, invalidateViews s = { s with
    extstat := { state := .none, pair := s.extstat.pair, leadTail := s.extstat.leadTail },
    cmdstat := { res := .none, lenMismatch := s.cmdstat.lenMismatch } })

/-- Once the views are invalid only an EXTRACT makes an extraction valid again, and until then DECODE_REPORT and
CMD_PARSE raise NOT_READY; EXTRACT and DECODE_STATUS raise it while a capture grows the buffer
(70_reset_and_hazards.md R264). -/
def Obligations.StalePositionsAreNeverUsed : Prop :=
  (∀ (s t : State) (e : Event) (rest : List Event), s.pending = e :: rest → step s = .next t →
    s.extstat.state = .none → t.extstat.state ≠ .none → ∃ p, Issues e (.extract p)) ∧
  (∀ s : State, s.extstat.state = .none →
    exec .decodeReport s = .next { s with operr := .notReady } ∧
    exec .cmdParse s = .next { s with operr := .notReady }) ∧
  (∀ (s : State) (p : Pair) (a : AccSel), s.capstat.active = true →
    exec (.extract p) s = .next { s with operr := .notReady } ∧
    exec (.decodeStatus a) s = .next { s with operr := .notReady })

/-- EXTRACT, DECODE_REPORT, CMD_PARSE and DECODE_STATUS read IBUF without changing it and write only their own
result registers and OPERR (20_memory.md R58). -/
def Obligations.DecodersWriteOnlyTheirOwnResults : Prop :=
  (∀ (p : Pair) (s t : State), exec (.extract p) s = .next t →
    t = { s with extstat := t.extstat, extHpos := t.extHpos, extStart := t.extStart, extLen := t.extLen,
                 operr := t.operr }) ∧
  (∀ s t : State, exec .decodeReport s = .next t →
    t = { s with repstat := t.repstat, repRawState := t.repRawState, repMdist := t.repMdist,
                 repMenergy := t.repMenergy, repSdist := t.repSdist, repSenergy := t.repSenergy,
                 repDist := t.repDist, operr := t.operr } ∧
    (t.repstat.res = .corrupt → t.operr = .ok →
      t = { s with repstat := { s.repstat with res := .corrupt, creason := t.repstat.creason }, operr := .ok })) ∧
  (∀ s t : State, exec .cmdParse s = .next t →
    t = { s with cmdstat := t.cmdstat, cmdLenf := t.cmdLenf, cmdWord := t.cmdWord, cmdVstart := t.cmdVstart,
                 cmdVlen := t.cmdVlen, operr := t.operr } ∧
    (t.cmdstat.res ≠ .ok → t = { s with cmdstat := t.cmdstat, operr := t.operr })) ∧
  (∀ (a : AccSel) (s t : State), exec (.decodeStatus a) s = .next t →
    t = { s with ststat := t.ststat, stCode := t.stCode, operr := t.operr })

/-- An active capture ends only at a received byte that completes the armed tail or fills IBUF, a timeout, CAP_CLEAR
or reset; while it is active EXTRACT and DECODE_STATUS report NOT_READY, and CAP_ARM, IBUF_LOAD, ENCODE and SEND
report BUSY (40_frame_extractor.md R107). -/
def Obligations.CaptureEndsOnlyInTheListedWays : Prop :=
  (∀ (s t : State) (e : Event) (rest : List Event), s.pending = e :: rest → step s = .next t →
    s.capstat.active = true → t.capstat.active = false →
    (∃ b bytes, e = .rx b ∧ BufferHolds t bytes ∧
      ((∃ front, bytes = front ++ tailOf s.capstat.pair) ∨ bytes.length = s.params.ibufSize)) ∨
    e = .timeout ∨ Issues e .capClear ∨ e = .reset) ∧
  (∀ (s : State) (p : Pair) (a : AccSel) (w : Word) (v : List Byte), s.capstat.active = true →
    exec (.extract p) s = .next { s with operr := .notReady } ∧
    exec (.decodeStatus a) s = .next { s with operr := .notReady } ∧
    exec (.capArm p) s = .next { s with operr := .busy } ∧
    exec (.ibufLoad v) s = .next { s with operr := .busy } ∧
    exec (.encode w v) s = .next { s with operr := .busy } ∧
    exec (.send w v) s = .next { s with operr := .busy })

/-- At most one exchange is outstanding: after a successful SEND every SEND, ENCODE, CAP_ARM and IBUF_LOAD is BUSY
for as long as the capture is active, and no step adds a byte to an OBUF that holds one
(42_command_codec.md R181). -/
def Obligations.OneCommandExchangeAtATime : Prop :=
  (∀ (s t : State) (w : Word) (v : List Byte), exec (.send w v) s = .next t → t.operr = .ok →
    t.capstat.active = true) ∧
  (∀ (s : State) (w : Word) (v : List Byte) (p : Pair), s.capstat.active = true →
    exec (.send w v) s = .next { s with operr := .busy } ∧
    exec (.encode w v) s = .next { s with operr := .busy } ∧
    exec (.capArm p) s = .next { s with operr := .busy } ∧
    exec (.ibufLoad v) s = .next { s with operr := .busy }) ∧
  (∀ s t : State, step s = .next t → s.obuf ≠ [] → ∃ n, t.obuf = s.obuf.drop n)

/-! ### Results about whole frames -/

/-- A capture just armed for pair p and fed a byte sequence no longer than IBUF_SIZE: if the tail of p first stands
at its very end, the capture has ended with TAIL and holds exactly those bytes; if the tail stands nowhere in it,
the capture holds exactly those bytes and is still active, or has ended with FULL when they fill IBUF
(40_frame_extractor.md R100, R105). -/
def Obligations.CaptureStopsAtTheFirstTail : Prop :=
  ∀ (s : State) (p : Pair) (bytes : List Byte) (rest : List Event),
    s.capstat = ⟨true, p, .none, false⟩ → s.ilen = 0 → 0 < s.params.ibufSize →
    bytes.length ≤ s.params.ibufSize → s.pending = Event.rxs bytes ++ rest →
    (∀ front, bytes = front ++ tailOf p → FirstAt bytes (tailOf p) 0 front.length →
      ∃ t, runSteps bytes.length s = .next t ∧ BufferHolds t bytes ∧ t.ilen = bytes.length ∧
        t.capstat = ⟨false, p, .tail, false⟩ ∧ t.pending = rest) ∧
    ((∀ i, ¬ StandsAt bytes (tailOf p) i) →
      ∃ t, runSteps bytes.length s = .next t ∧ BufferHolds t bytes ∧ t.ilen = bytes.length ∧ t.pending = rest ∧
        (bytes.length < s.params.ibufSize → t.capstat = ⟨true, p, .none, false⟩) ∧
        (bytes.length = s.params.ibufSize → t.capstat = ⟨false, p, .full, false⟩))

/-- A complete report frame, loaded, extracted and decoded, gives a VALID report with the fields of its target
payload at the offsets of the wire format, whatever the prefix and the trailing bytes hold, provided the real tail
is the first tail after the header (30_encoding.md R79; 41_report_decoder.md R143, R144, R145, R148). -/
def Obligations.ReportFrameDecodesToItsFields : Prop :=
  ∀ (s : State) (pre trailing : List Byte) (p0 p1 p2 p3 p4 p5 p6 p7 p8 : Byte) (f : List Byte),
    f = reportFrame pre [p0, p1, p2, p3, p4, p5, p6, p7, p8] trailing →
    pre.length = 4 → trailing.length = 2 → s.capstat.active = false → 23 ≤ s.params.ibufSize →
    FirstAt f (tailOf .report) 4 19 →
    f.length = 23 ∧
    ∃ t1 t2 t3, exec (.ibufLoad f) s = .next t1 ∧ exec (.extract .report) t1 = .next t2 ∧
      exec .decodeReport t2 = .next t3 ∧
      t2.extstat.state = .found ∧ t2.extHpos = 0 ∧ t2.extStart = 4 ∧ t2.extLen = 15 ∧
      t3 = { t2 with
        repRawState := p0
        repMdist := BitVec.ofNat 15 ((p1.toNat + 256 * p2.toNat) % 32768)
        repMenergy := p3
        repSdist := BitVec.ofNat 15 ((p4.toNat + 256 * p5.toNat) % 32768)
        repSenergy := p6
        repDist := BitVec.ofNat 15 ((p7.toNat + 256 * p8.toNat) % 32768)
        repstat := { res := .valid, tstate := tstateOf p0, creason := .none } }

/-- Round trip: an encoded command frame, loaded, extracted with the command pair and parsed, gives back the length,
the word and the value, provided the tail does not occur in the span of length, word and value; where it does, the
extractor stops at the first embedded tail and the body is shorter (42_command_codec.md R182;
40_frame_extractor.md R111). -/
def Obligations.EncodedCommandRoundTrips : Prop :=
  ∀ (s : State) (w : Word) (v f : List Byte), f = cmdframe w v → s.params.Valid → s.capstat.active = false →
    v.length ≤ s.params.vmax → 12 + v.length ≤ s.params.ibufSize →
    ((∀ i, 4 ≤ i → i + 4 ≤ 8 + v.length → ¬ StandsAt f (tailOf .command) i) →
      ∃ t1 t2 t3, exec (.ibufLoad f) s = .next t1 ∧ exec (.extract .command) t1 = .next t2 ∧
        exec .cmdParse t2 = .next t3 ∧ t3.operr = .ok ∧
        t3.extstat.state = .found ∧ t3.extHpos = 0 ∧ t3.extStart = 4 ∧ t3.extLen = 4 + v.length ∧
        t3.ibuf.readMany? 4 (4 + v.length) = some (le16bytes (BitVec.ofNat 16 (2 + v.length)) ++ le16bytes w ++ v) ∧
        t3.cmdstat = ⟨.ok, false⟩ ∧ t3.cmdLenf.toNat = 2 + v.length ∧ t3.cmdWord = w ∧
        t3.cmdVstart = 8 ∧ t3.cmdVlen = v.length ∧ t3.ibuf.readMany? 8 v.length = some v) ∧
    (∀ i, FirstAt f (tailOf .command) 4 i → i + 4 ≤ 8 + v.length →
      ∃ t1 t2, exec (.ibufLoad f) s = .next t1 ∧ exec (.extract .command) t1 = .next t2 ∧
        t2.extstat.state = .found ∧ t2.extHpos = 0 ∧ t2.extStart = 4 ∧ t2.extLen = i - 4 ∧
        t2.extLen < 4 + v.length)

/-- The pseudo-operations: each expands to one SEND of the command frame the table gives, which arms a command
capture, and its status check is the one the table lists (30_encoding.md R88; 95_test_vectors.md 1.3). -/
def Obligations.PseudoOperationsSendTheirFrames : Prop :=
  (∀ s : State, s.obuf = [] → s.capstat.active = false → 2 ≤ s.params.vmax →
    ∀ op : PseudoOp, ∃ t, exec op.expand s = .next t ∧ t.operr = .ok ∧
      t.capstat = ⟨true, .command, .none, false⟩ ∧
      t.obuf = match op with
        | .enterConfig =>
          [0xFD, 0xFC, 0xFB, 0xFA, 0x04, 0x00, 0xFF, 0x00, 0x01, 0x00, 0x04, 0x03, 0x02, 0x01]
        | .exitConfig => [0xFD, 0xFC, 0xFB, 0xFA, 0x02, 0x00, 0xFE, 0x00, 0x04, 0x03, 0x02, 0x01]
        | .enableEng => [0xFD, 0xFC, 0xFB, 0xFA, 0x02, 0x00, 0x62, 0x00, 0x04, 0x03, 0x02, 0x01]
        | .disableEng => [0xFD, 0xFC, 0xFB, 0xFA, 0x02, 0x00, 0x63, 0x00, 0x04, 0x03, 0x02, 0x01]
        | .readConfig => [0xFD, 0xFC, 0xFB, 0xFA, 0x02, 0x00, 0x61, 0x00, 0x04, 0x03, 0x02, 0x01]) ∧
  PseudoOp.statusCheck .enterConfig = some (.decodeStatus .enterConfig) ∧
  PseudoOp.statusCheck .exitConfig = some (.decodeStatus .default) ∧
  PseudoOp.statusCheck .enableEng = some (.decodeStatus .default) ∧
  PseudoOp.statusCheck .disableEng = some (.decodeStatus .default) ∧
  PseudoOp.statusCheck .readConfig = none
end

