-- ==== Sys2Proof/Laws/Bytes.lean ====
section
/-! SUPPORT. The laws of the byte-sequence primitives (00_scope.md R16) and of the delimiters (30_encoding.md R78),
stated with `StandsAt` and `FirstAt`, and what the frame scan answers. -/

namespace Sys2Proof.Machine

@[simp] theorem hdr_length (p : Pair) : (hdr p).length = 4 := by cases p <;> rfl

@[simp] theorem tailOf_length (p : Pair) : (tailOf p).length = 4 := by cases p <;> rfl

theorem slice_length (s : List Byte) {i j : Nat} (h : j ≤ s.length) : (slice s i j).length = j - i := by
  simp [slice]; omega

theorem matchesAt_iff {s p : List Byte} {i : Nat} : matchesAt s p i = true ↔ StandsAt s p i := by
  simp [matchesAt, StandsAt, slice]

theorem StandsAt.le_length {s p : List Byte} {i : Nat} (h : StandsAt s p i) : i + p.length ≤ s.length := h.1

/-- Where a pattern stands, its bytes are the sequence's. -/
theorem standsAt_iff_getElem? {s p : List Byte} {i : Nat} :
    StandsAt s p i ↔ i + p.length ≤ s.length ∧ ∀ k, k < p.length → s[i + k]? = p[k]? := by
  constructor
  · rintro ⟨h, he⟩
    refine ⟨h, fun k hk => ?_⟩
    rw [← he, List.getElem?_take_of_lt hk, List.getElem?_drop]
  · rintro ⟨h, hk⟩
    refine ⟨h, List.ext_getElem? fun k => ?_⟩
    by_cases hlt : k < p.length
    · rw [List.getElem?_take_of_lt hlt, List.getElem?_drop, hk k hlt]
    · rw [List.getElem?_eq_none (by simp; omega), List.getElem?_eq_none (by omega)]

theorem find_eq_none_iff {s p : List Byte} {k : Nat} :
    find s p k = none ↔ ∀ i, k ≤ i → ¬ StandsAt s p i := by
  simp only [find, List.find?_eq_none, List.mem_range'_1, matchesAt_iff]
  constructor
  · intro h i hi hs
    exact h i ⟨hi, by have := hs.le_length; omega⟩ hs
  · intro h i hi
    exact h i hi.1

/-- `find` answers the first index (00_scope.md R16). -/
theorem find_eq_some_iff {s p : List Byte} {k i : Nat} : find s p k = some i ↔ FirstAt s p k i := by
  simp only [find, List.find?_range'_eq_some, matchesAt_iff, List.mem_range'_1, FirstAt]
  constructor
  · rintro ⟨hs, ⟨hk, _⟩, hmin⟩
    refine ⟨hk, hs, fun j hj hsj => ?_⟩
    by_contra hlt
    have := hmin j hj (by omega)
    simp [matchesAt_iff.mpr hsj] at this
  · rintro ⟨hk, hs, hmin⟩
    refine ⟨hs, ⟨hk, by have := hs.le_length; omega⟩, fun j hj hlt => ?_⟩
    by_contra hm
    have := hmin j hj (matchesAt_iff.mp (by simpa using hm))
    omega

theorem find_isSome_iff {s p : List Byte} {k : Nat} :
    (find s p k).isSome = true ↔ ∃ i, k ≤ i ∧ StandsAt s p i := by
  rw [← Option.ne_none_iff_isSome, ne_eq, find_eq_none_iff]; push Not; rfl

theorem occurs_iff {s p : List Byte} {k m : Nat} :
    occurs s p k m = true ↔ ∃ i, k ≤ i ∧ i < m ∧ StandsAt s p i := by
  simp only [occurs, List.any_eq_true, List.mem_range'_1, matchesAt_iff]
  constructor
  · rintro ⟨i, ⟨h1, h2⟩, h⟩; exact ⟨i, h1, by omega, h⟩
  · rintro ⟨i, h1, h2, h⟩; exact ⟨i, ⟨h1, by omega⟩, h⟩

theorem endsWith_iff {s p : List Byte} :
    endsWith s p = true ↔ p.length ≤ s.length ∧ StandsAt s p (s.length - p.length) := by
  simp only [endsWith, StandsAt, slice, Bool.and_eq_true, decide_eq_true_eq, beq_iff_eq]
  constructor
  · rintro ⟨h, he⟩
    refine ⟨h, by omega, ?_⟩
    rwa [show s.length - (s.length - p.length) = p.length by omega] at he
  · rintro ⟨h, _, he⟩
    refine ⟨h, ?_⟩
    rwa [show s.length - (s.length - p.length) = p.length by omega]

/-- In a sequence one byte longer, a pattern stands where it stood, or at the very end. -/
theorem standsAt_concat {s p : List Byte} {b : Byte} {i : Nat}
    (h : StandsAt (s ++ [b]) p i) : StandsAt s p i ∨ endsWith (s ++ [b]) p = true := by
  have hl := h.le_length
  simp only [List.length_append, List.length_singleton] at hl
  by_cases he : i + p.length = s.length + 1
  · right
    rw [endsWith_iff]
    refine ⟨by simp; omega, ?_⟩
    rwa [show (s ++ [b]).length - p.length = i by simp; omega]
  · left
    rw [standsAt_iff_getElem?] at h ⊢
    refine ⟨by omega, fun k hk => ?_⟩
    rw [← h.2 k hk, List.getElem?_append_left (by omega)]

/-- The frame scan with no header in the buffer. -/
theorem scanFrame_noHeader {p : Pair} {s : List Byte} (h : find s (hdr p) 0 = none) :
    scanFrame p s =
      { state := .noHeader, leadTail := (find s (tailOf p) 0).isSome, hpos := 0, start := 0, len := 0 } := by
  simp [scanFrame, h]

/-- The frame scan with a header and no tail after it. -/
theorem scanFrame_noTail {p : Pair} {s : List Byte} {h : Nat} (hh : find s (hdr p) 0 = some h)
    (ht : find s (tailOf p) (h + 4) = none) :
    scanFrame p s =
      { state := .noTail, leadTail := occurs s (tailOf p) 0 h, hpos := h, start := 0, len := 0 } := by
  simp [scanFrame, hh, ht]

/-- The frame scan with a header and a tail after it. -/
theorem scanFrame_found {p : Pair} {s : List Byte} {h t : Nat} (hh : find s (hdr p) 0 = some h)
    (ht : find s (tailOf p) (h + 4) = some t) :
    scanFrame p s =
      { state := .found, leadTail := occurs s (tailOf p) 0 h, hpos := h, start := h + 4, len := t - (h + 4) } := by
  simp [scanFrame, hh, ht]

/-- The three answers of the frame scan. -/
theorem scanFrame_cases (p : Pair) (s : List Byte) :
    (find s (hdr p) 0 = none ∧ (scanFrame p s).state = .noHeader ∧ (scanFrame p s).hpos = 0 ∧
      (scanFrame p s).start = 0 ∧ (scanFrame p s).len = 0) ∨
    (∃ h, h + 4 ≤ s.length ∧ (scanFrame p s).state = .noTail ∧ (scanFrame p s).hpos = h ∧
      (scanFrame p s).start = 0 ∧ (scanFrame p s).len = 0) ∨
    (∃ h t, h + 4 ≤ t ∧ t + 4 ≤ s.length ∧ (scanFrame p s).state = .found ∧ (scanFrame p s).hpos = h ∧
      (scanFrame p s).start = h + 4 ∧ (scanFrame p s).len = t - (h + 4)) := by
  cases hh : find s (hdr p) 0 with
  | none => simp [scanFrame_noHeader hh]
  | some h =>
    have h1 := (find_eq_some_iff.mp hh).2.1.le_length
    simp only [hdr_length] at h1
    cases ht : find s (tailOf p) (h + 4) with
    | none => simp [scanFrame_noTail hh ht, h1]
    | some t =>
      have hf := find_eq_some_iff.mp ht
      have h2 := hf.2.1.le_length
      simp only [tailOf_length] at h2
      rw [scanFrame_found hh ht]
      exact .inr (.inr ⟨h, t, hf.1, h2, rfl, rfl, rfl, rfl⟩)

/-- A body the frame scan finds lies between its header and its tail, within the buffer. -/
theorem scanFrame_found_bounds {p : Pair} {s : List Byte} (h : (scanFrame p s).state = .found) :
    (scanFrame p s).start = (scanFrame p s).hpos + 4 ∧
    (scanFrame p s).start + (scanFrame p s).len + 4 ≤ s.length := by
  obtain ⟨_, h', _⟩ | ⟨_, _, h', _⟩ | ⟨i, t, h1, h2, _, hp, hs, hl⟩ := scanFrame_cases p s
  · simp [h'] at h
  · simp [h'] at h
  · rw [hp, hs, hl]; exact ⟨rfl, by omega⟩

theorem scanFrame_positions_le (p : Pair) (s : List Byte) :
    (scanFrame p s).hpos ≤ s.length ∧ (scanFrame p s).start ≤ s.length ∧ (scanFrame p s).len ≤ s.length := by
  obtain ⟨_, _, hp, hs, hl⟩ | ⟨i, _, _, hp, hs, hl⟩ | ⟨i, t, h1, h2, _, hp, hs, hl⟩ := scanFrame_cases p s <;>
    rw [hp, hs, hl] <;> omega

theorem scanFrame_state_ne_none (p : Pair) (s : List Byte) : (scanFrame p s).state ≠ .none := by
  obtain ⟨_, h, _⟩ | ⟨_, _, h, _⟩ | ⟨_, _, _, _, h, _⟩ := scanFrame_cases p s <;> simp [h]

@[simp] theorem cmdframe_length (w : Word) (v : List Byte) : (cmdframe w v).length = 12 + v.length := by
  simp [cmdframe, le16bytes]; omega

end Sys2Proof.Machine
end

