-- ==== Sys2Proof/Laws/Memory.lean ====
section
/-! SUPPORT. The laws of the capture buffer's cells: reading what was written, leaving every other index alone, keeping
the canonical form. -/

namespace Sys2Proof.Machine

@[simp] theorem Memory.read?_nil (a : Nat) : Memory.read? [] a = none := rfl

@[simp] theorem Memory.readMany?_zero (m : Memory) (i : Nat) : m.readMany? i 0 = some [] := rfl

@[simp] theorem Memory.writeMany_nil (m : Memory) (i : Nat) : m.writeMany i [] = m := rfl

/-- A read after a write to one index. -/
theorem Memory.read?_write (m : Memory) (a : Nat) (b : Byte) (x : Nat) :
    (m.write a b).read? x = if x = a then some b else m.read? x := by
  induction m with
  | nil => by_cases hx : a = x <;> simp [Memory.write, Memory.read?, eq_comm, hx]
  | cons c m ih =>
    obtain ⟨k, v⟩ := c
    simp only [Memory.write]
    split
    · by_cases hx : a = x <;> simp [Memory.read?, eq_comm, hx]
    · split
      · next _ hak => subst hak; by_cases hx : a = x <;> simp [Memory.read?, eq_comm, hx]
      · next _ hak =>
        simp only [Memory.read?, ih]
        by_cases hk : k = x
        · subst hk; simp [eq_comm, hak]
        · simp [hk]

theorem Memory.mem_write_key {m : Memory} {a : Nat} {b : Byte} {c : Host.Cell} (h : c ∈ m.write a b) :
    c.1 = a ∨ c ∈ m := by
  induction m with
  | nil => simp [Memory.write] at h; simp [h]
  | cons d m ih =>
    obtain ⟨k, v⟩ := d
    simp only [Memory.write] at h
    split at h
    · rcases List.mem_cons.mp h with h | h
      · simp [h]
      · exact .inr h
    · split at h
      · rcases List.mem_cons.mp h with h | h
        · simp [h]
        · exact .inr (List.mem_cons_of_mem _ h)
      · rcases List.mem_cons.mp h with h | h
        · simp [h]
        · rcases ih h with h | h
          · exact .inl h
          · exact .inr (List.mem_cons_of_mem _ h)

/-- A write keeps the canonical form. -/
theorem Memory.write_wf {m : Memory} (h : m.wf) (a : Nat) (b : Byte) : (m.write a b).wf := by
  induction m with
  | nil => simp [Memory.write, Memory.wf]
  | cons c m ih =>
    obtain ⟨k, v⟩ := c
    have hm := List.pairwise_cons.mp h
    simp only [Memory.write]
    split
    · next hlt =>
      refine List.pairwise_cons.mpr ⟨fun d hd => ?_, h⟩
      rcases List.mem_cons.mp hd with rfl | hd
      · exact hlt
      · exact Nat.lt_trans hlt (hm.1 d hd)
    · split
      · next hak => subst hak; exact List.pairwise_cons.mpr ⟨hm.1, hm.2⟩
      · next hnl hne =>
        refine List.pairwise_cons.mpr ⟨fun d hd => ?_, ih hm.2⟩
        rcases Memory.mem_write_key hd with hd | hd
        · simp only [hd]; omega
        · exact hm.1 d hd

/-- A write of a sequence keeps the canonical form. -/
theorem Memory.writeMany_wf {m : Memory} (h : m.wf) (i : Nat) (v : List Byte) : (m.writeMany i v).wf := by
  induction v generalizing m i with
  | nil => exact h
  | cons b v ih => exact ih (Memory.write_wf h i b) (i + 1)

/-- A read after a write of a sequence: the sequence's byte inside its span, the old byte outside. -/
theorem Memory.read?_writeMany (m : Memory) (i : Nat) (v : List Byte) (x : Nat) :
    (m.writeMany i v).read? x = if i ≤ x ∧ x < i + v.length then v[x - i]? else m.read? x := by
  induction v generalizing m i with
  | nil => simp
  | cons b v ih =>
    simp only [Memory.writeMany, ih, Memory.read?_write, List.length_cons]
    by_cases hx : x = i
    · subst hx; simp
    · by_cases h1 : i + 1 ≤ x ∧ x < i + 1 + v.length
      · have : x - i = (x - (i + 1)) + 1 := by omega
        rw [if_pos h1, if_pos (by omega), this, List.getElem?_cons_succ]
      · rw [if_neg h1, if_neg hx, if_neg (by omega)]

/-- What a read of n bytes answers: n bytes, each the byte listed at its index. -/
theorem Memory.readMany?_eq_some_iff {m : Memory} {i n : Nat} {bs : List Byte} :
    m.readMany? i n = some bs ↔ bs.length = n ∧ ∀ k, k < n → m.read? (i + k) = bs[k]? := by
  induction n generalizing i bs with
  | zero => cases bs <;> simp
  | succ n ih =>
    simp only [Memory.readMany?]
    constructor
    · intro h
      split at h
      · next b bs' hb hbs =>
        obtain ⟨hl, hk⟩ := ih.mp hbs
        cases h
        refine ⟨by simp [hl], fun k hk' => ?_⟩
        cases k with
        | zero => simpa using hb
        | succ k => simpa [Nat.add_assoc, Nat.add_comm 1 k] using hk k (by omega)
      · cases h
    · rintro ⟨hl, hk⟩
      cases bs with
      | nil => simp at hl
      | cons b bs =>
        have h0 := hk 0 (by omega)
        have hr : m.readMany? (i + 1) n = some bs :=
          ih.mpr ⟨by simpa using hl, fun k hk' => by
            simpa [Nat.add_assoc, Nat.add_comm 1 k] using hk (k + 1) (by omega)⟩
        simp only [Nat.add_zero, List.getElem?_cons_zero] at h0
        rw [h0, hr]

theorem Memory.readMany?_length {m : Memory} {i n : Nat} {bs : List Byte} (h : m.readMany? i n = some bs) :
    bs.length = n := (Memory.readMany?_eq_some_iff.mp h).1

/-- A read of n bytes answers iff every one of them is listed. -/
theorem Memory.readMany?_isSome_iff {m : Memory} {i n : Nat} :
    (m.readMany? i n).isSome = true ↔ ∀ k, k < n → (m.read? (i + k)).isSome = true := by
  induction n generalizing i with
  | zero => simp
  | succ n ih =>
    have key : (m.readMany? i (n + 1)).isSome = true ↔
        (m.read? i).isSome = true ∧ (m.readMany? (i + 1) n).isSome = true := by
      simp only [Memory.readMany?]
      cases m.read? i <;> cases m.readMany? (i + 1) n <;> simp
    rw [key, ih]
    constructor
    · rintro ⟨h0, hk⟩ k hlt
      cases k with
      | zero => simpa using h0
      | succ k => simpa [Nat.add_assoc, Nat.add_comm 1 k] using hk k (by omega)
    · intro h
      exact ⟨by simpa using h 0 (by omega), fun k hk => by
        simpa [Nat.add_assoc, Nat.add_comm 1 k] using h (k + 1) (by omega)⟩

/-- Reads that agree on every index of a span agree on the span. -/
theorem Memory.readMany?_congr {m m' : Memory} {i n : Nat} (h : ∀ k, k < n → m'.read? (i + k) = m.read? (i + k)) :
    m'.readMany? i n = m.readMany? i n := by
  induction n generalizing i with
  | zero => rfl
  | succ n ih =>
    have h0 := h 0 (by omega)
    have hr : m'.readMany? (i + 1) n = m.readMany? (i + 1) n :=
      ih fun k hk => by simpa [Nat.add_assoc, Nat.add_comm 1 k] using h (k + 1) (by omega)
    simp only [Nat.add_zero] at h0
    simp only [Memory.readMany?, h0, hr]

/-- A sequence just written reads back. -/
theorem Memory.readMany?_writeMany_self (m : Memory) (i : Nat) (v : List Byte) :
    (m.writeMany i v).readMany? i v.length = some v :=
  Memory.readMany?_eq_some_iff.mpr ⟨rfl, fun k hk => by
    rw [Memory.read?_writeMany, if_pos ⟨by omega, by omega⟩, Nat.add_sub_cancel_left]⟩

/-- Writing the byte after a span that reads as `bs` makes the longer span read as `bs` and that byte. -/
theorem Memory.readMany?_write_end {m : Memory} {n : Nat} {bs : List Byte} (b : Byte)
    (hr : m.readMany? 0 n = some bs) : (m.write n b).readMany? 0 (n + 1) = some (bs ++ [b]) := by
  obtain ⟨hl, hk⟩ := Memory.readMany?_eq_some_iff.mp hr
  refine Memory.readMany?_eq_some_iff.mpr ⟨by simp [hl], fun k hlt => ?_⟩
  rw [Memory.read?_write]
  by_cases he : k = n
  · subst he; simp [← hl]
  · have : k < n := by omega
    have hk' := hk k this
    rw [List.getElem?_append_left (by omega)]
    simpa [he] using hk'

end Sys2Proof.Machine
end

