-- ==== Sys2Proof/Laws/State.lean ====
section
/-! SUPPORT. One lemma for each field of State under each shared update, true by rfl. -/

namespace Sys2Proof.Machine

section
variable (s : State)

@[simp] theorem invalidateViews_params : (invalidateViews s).params = s.params := rfl
@[simp] theorem invalidateViews_operr : (invalidateViews s).operr = s.operr := rfl
@[simp] theorem invalidateViews_capstat : (invalidateViews s).capstat = s.capstat := rfl
@[simp] theorem invalidateViews_ilen : (invalidateViews s).ilen = s.ilen := rfl
@[simp] theorem invalidateViews_ibuf : (invalidateViews s).ibuf = s.ibuf := rfl
@[simp] theorem invalidateViews_extstat : (invalidateViews s).extstat = { s.extstat with state := .none } := rfl
@[simp] theorem invalidateViews_extHpos : (invalidateViews s).extHpos = s.extHpos := rfl
@[simp] theorem invalidateViews_extStart : (invalidateViews s).extStart = s.extStart := rfl
@[simp] theorem invalidateViews_extLen : (invalidateViews s).extLen = s.extLen := rfl
@[simp] theorem invalidateViews_repstat : (invalidateViews s).repstat = s.repstat := rfl
@[simp] theorem invalidateViews_repRawState : (invalidateViews s).repRawState = s.repRawState := rfl
@[simp] theorem invalidateViews_repMdist : (invalidateViews s).repMdist = s.repMdist := rfl
@[simp] theorem invalidateViews_repMenergy : (invalidateViews s).repMenergy = s.repMenergy := rfl
@[simp] theorem invalidateViews_repSdist : (invalidateViews s).repSdist = s.repSdist := rfl
@[simp] theorem invalidateViews_repSenergy : (invalidateViews s).repSenergy = s.repSenergy := rfl
@[simp] theorem invalidateViews_repDist : (invalidateViews s).repDist = s.repDist := rfl
@[simp] theorem invalidateViews_cmdstat : (invalidateViews s).cmdstat = { s.cmdstat with res := .none } := rfl
@[simp] theorem invalidateViews_cmdLenf : (invalidateViews s).cmdLenf = s.cmdLenf := rfl
@[simp] theorem invalidateViews_cmdWord : (invalidateViews s).cmdWord = s.cmdWord := rfl
@[simp] theorem invalidateViews_cmdVstart : (invalidateViews s).cmdVstart = s.cmdVstart := rfl
@[simp] theorem invalidateViews_cmdVlen : (invalidateViews s).cmdVlen = s.cmdVlen := rfl
@[simp] theorem invalidateViews_ststat : (invalidateViews s).ststat = s.ststat := rfl
@[simp] theorem invalidateViews_stCode : (invalidateViews s).stCode = s.stCode := rfl
@[simp] theorem invalidateViews_obuf : (invalidateViews s).obuf = s.obuf := rfl
@[simp] theorem invalidateViews_acc : (invalidateViews s).acc = s.acc := rfl
@[simp] theorem invalidateViews_pending : (invalidateViews s).pending = s.pending := rfl
@[simp] theorem invalidateViews_txStream : (invalidateViews s).txStream = s.txStream := rfl
@[simp] theorem invalidateViews_hostReads : (invalidateViews s).hostReads = s.hostReads := rfl

end

section
variable (s : State) (p : Pair)

@[simp] theorem armCapture_params : (armCapture p s).params = s.params := rfl
@[simp] theorem armCapture_operr : (armCapture p s).operr = s.operr := rfl
@[simp] theorem armCapture_capstat : (armCapture p s).capstat = { active := true, pair := p, ended := .none, rxlost := false } := rfl
@[simp] theorem armCapture_ilen : (armCapture p s).ilen = 0 := rfl
@[simp] theorem armCapture_ibuf : (armCapture p s).ibuf = s.ibuf := rfl
@[simp] theorem armCapture_extstat : (armCapture p s).extstat = { s.extstat with state := .none } := rfl
@[simp] theorem armCapture_extHpos : (armCapture p s).extHpos = s.extHpos := rfl
@[simp] theorem armCapture_extStart : (armCapture p s).extStart = s.extStart := rfl
@[simp] theorem armCapture_extLen : (armCapture p s).extLen = s.extLen := rfl
@[simp] theorem armCapture_repstat : (armCapture p s).repstat = s.repstat := rfl
@[simp] theorem armCapture_repRawState : (armCapture p s).repRawState = s.repRawState := rfl
@[simp] theorem armCapture_repMdist : (armCapture p s).repMdist = s.repMdist := rfl
@[simp] theorem armCapture_repMenergy : (armCapture p s).repMenergy = s.repMenergy := rfl
@[simp] theorem armCapture_repSdist : (armCapture p s).repSdist = s.repSdist := rfl
@[simp] theorem armCapture_repSenergy : (armCapture p s).repSenergy = s.repSenergy := rfl
@[simp] theorem armCapture_repDist : (armCapture p s).repDist = s.repDist := rfl
@[simp] theorem armCapture_cmdstat : (armCapture p s).cmdstat = { s.cmdstat with res := .none } := rfl
@[simp] theorem armCapture_cmdLenf : (armCapture p s).cmdLenf = s.cmdLenf := rfl
@[simp] theorem armCapture_cmdWord : (armCapture p s).cmdWord = s.cmdWord := rfl
@[simp] theorem armCapture_cmdVstart : (armCapture p s).cmdVstart = s.cmdVstart := rfl
@[simp] theorem armCapture_cmdVlen : (armCapture p s).cmdVlen = s.cmdVlen := rfl
@[simp] theorem armCapture_ststat : (armCapture p s).ststat = s.ststat := rfl
@[simp] theorem armCapture_stCode : (armCapture p s).stCode = s.stCode := rfl
@[simp] theorem armCapture_obuf : (armCapture p s).obuf = s.obuf := rfl
@[simp] theorem armCapture_acc : (armCapture p s).acc = s.acc := rfl
@[simp] theorem armCapture_pending : (armCapture p s).pending = s.pending := rfl
@[simp] theorem armCapture_txStream : (armCapture p s).txStream = s.txStream := rfl
@[simp] theorem armCapture_hostReads : (armCapture p s).hostReads = s.hostReads := rfl

end

section
variable (s : State) (e : CapEnd)

@[simp] theorem endCapture_params : (endCapture e s).params = s.params := rfl
@[simp] theorem endCapture_operr : (endCapture e s).operr = s.operr := rfl
@[simp] theorem endCapture_capstat : (endCapture e s).capstat = { s.capstat with active := false, ended := e } := rfl
@[simp] theorem endCapture_ilen : (endCapture e s).ilen = s.ilen := rfl
@[simp] theorem endCapture_ibuf : (endCapture e s).ibuf = s.ibuf := rfl
@[simp] theorem endCapture_extstat : (endCapture e s).extstat = s.extstat := rfl
@[simp] theorem endCapture_extHpos : (endCapture e s).extHpos = s.extHpos := rfl
@[simp] theorem endCapture_extStart : (endCapture e s).extStart = s.extStart := rfl
@[simp] theorem endCapture_extLen : (endCapture e s).extLen = s.extLen := rfl
@[simp] theorem endCapture_repstat : (endCapture e s).repstat = s.repstat := rfl
@[simp] theorem endCapture_repRawState : (endCapture e s).repRawState = s.repRawState := rfl
@[simp] theorem endCapture_repMdist : (endCapture e s).repMdist = s.repMdist := rfl
@[simp] theorem endCapture_repMenergy : (endCapture e s).repMenergy = s.repMenergy := rfl
@[simp] theorem endCapture_repSdist : (endCapture e s).repSdist = s.repSdist := rfl
@[simp] theorem endCapture_repSenergy : (endCapture e s).repSenergy = s.repSenergy := rfl
@[simp] theorem endCapture_repDist : (endCapture e s).repDist = s.repDist := rfl
@[simp] theorem endCapture_cmdstat : (endCapture e s).cmdstat = s.cmdstat := rfl
@[simp] theorem endCapture_cmdLenf : (endCapture e s).cmdLenf = s.cmdLenf := rfl
@[simp] theorem endCapture_cmdWord : (endCapture e s).cmdWord = s.cmdWord := rfl
@[simp] theorem endCapture_cmdVstart : (endCapture e s).cmdVstart = s.cmdVstart := rfl
@[simp] theorem endCapture_cmdVlen : (endCapture e s).cmdVlen = s.cmdVlen := rfl
@[simp] theorem endCapture_ststat : (endCapture e s).ststat = s.ststat := rfl
@[simp] theorem endCapture_stCode : (endCapture e s).stCode = s.stCode := rfl
@[simp] theorem endCapture_obuf : (endCapture e s).obuf = s.obuf := rfl
@[simp] theorem endCapture_acc : (endCapture e s).acc = s.acc := rfl
@[simp] theorem endCapture_pending : (endCapture e s).pending = s.pending := rfl
@[simp] theorem endCapture_txStream : (endCapture e s).txStream = s.txStream := rfl
@[simp] theorem endCapture_hostReads : (endCapture e s).hostReads = s.hostReads := rfl

end

section
variable (s : State) (v : List Byte)

@[simp] theorem obufPush_params : (obufPush v s).params = s.params := rfl
@[simp] theorem obufPush_operr : (obufPush v s).operr = s.operr := rfl
@[simp] theorem obufPush_capstat : (obufPush v s).capstat = s.capstat := rfl
@[simp] theorem obufPush_ilen : (obufPush v s).ilen = s.ilen := rfl
@[simp] theorem obufPush_ibuf : (obufPush v s).ibuf = s.ibuf := rfl
@[simp] theorem obufPush_extstat : (obufPush v s).extstat = s.extstat := rfl
@[simp] theorem obufPush_extHpos : (obufPush v s).extHpos = s.extHpos := rfl
@[simp] theorem obufPush_extStart : (obufPush v s).extStart = s.extStart := rfl
@[simp] theorem obufPush_extLen : (obufPush v s).extLen = s.extLen := rfl
@[simp] theorem obufPush_repstat : (obufPush v s).repstat = s.repstat := rfl
@[simp] theorem obufPush_repRawState : (obufPush v s).repRawState = s.repRawState := rfl
@[simp] theorem obufPush_repMdist : (obufPush v s).repMdist = s.repMdist := rfl
@[simp] theorem obufPush_repMenergy : (obufPush v s).repMenergy = s.repMenergy := rfl
@[simp] theorem obufPush_repSdist : (obufPush v s).repSdist = s.repSdist := rfl
@[simp] theorem obufPush_repSenergy : (obufPush v s).repSenergy = s.repSenergy := rfl
@[simp] theorem obufPush_repDist : (obufPush v s).repDist = s.repDist := rfl
@[simp] theorem obufPush_cmdstat : (obufPush v s).cmdstat = s.cmdstat := rfl
@[simp] theorem obufPush_cmdLenf : (obufPush v s).cmdLenf = s.cmdLenf := rfl
@[simp] theorem obufPush_cmdWord : (obufPush v s).cmdWord = s.cmdWord := rfl
@[simp] theorem obufPush_cmdVstart : (obufPush v s).cmdVstart = s.cmdVstart := rfl
@[simp] theorem obufPush_cmdVlen : (obufPush v s).cmdVlen = s.cmdVlen := rfl
@[simp] theorem obufPush_ststat : (obufPush v s).ststat = s.ststat := rfl
@[simp] theorem obufPush_stCode : (obufPush v s).stCode = s.stCode := rfl
@[simp] theorem obufPush_obuf : (obufPush v s).obuf = s.obuf ++ v := rfl
@[simp] theorem obufPush_acc : (obufPush v s).acc = s.acc := rfl
@[simp] theorem obufPush_pending : (obufPush v s).pending = s.pending := rfl
@[simp] theorem obufPush_txStream : (obufPush v s).txStream = s.txStream := rfl
@[simp] theorem obufPush_hostReads : (obufPush v s).hostReads = s.hostReads := rfl

end

section
variable (s : State) (b : Byte)

@[simp] theorem emit_params : (emit b s).params = s.params := rfl
@[simp] theorem emit_operr : (emit b s).operr = s.operr := rfl
@[simp] theorem emit_capstat : (emit b s).capstat = s.capstat := rfl
@[simp] theorem emit_ilen : (emit b s).ilen = s.ilen := rfl
@[simp] theorem emit_ibuf : (emit b s).ibuf = s.ibuf := rfl
@[simp] theorem emit_extstat : (emit b s).extstat = s.extstat := rfl
@[simp] theorem emit_extHpos : (emit b s).extHpos = s.extHpos := rfl
@[simp] theorem emit_extStart : (emit b s).extStart = s.extStart := rfl
@[simp] theorem emit_extLen : (emit b s).extLen = s.extLen := rfl
@[simp] theorem emit_repstat : (emit b s).repstat = s.repstat := rfl
@[simp] theorem emit_repRawState : (emit b s).repRawState = s.repRawState := rfl
@[simp] theorem emit_repMdist : (emit b s).repMdist = s.repMdist := rfl
@[simp] theorem emit_repMenergy : (emit b s).repMenergy = s.repMenergy := rfl
@[simp] theorem emit_repSdist : (emit b s).repSdist = s.repSdist := rfl
@[simp] theorem emit_repSenergy : (emit b s).repSenergy = s.repSenergy := rfl
@[simp] theorem emit_repDist : (emit b s).repDist = s.repDist := rfl
@[simp] theorem emit_cmdstat : (emit b s).cmdstat = s.cmdstat := rfl
@[simp] theorem emit_cmdLenf : (emit b s).cmdLenf = s.cmdLenf := rfl
@[simp] theorem emit_cmdWord : (emit b s).cmdWord = s.cmdWord := rfl
@[simp] theorem emit_cmdVstart : (emit b s).cmdVstart = s.cmdVstart := rfl
@[simp] theorem emit_cmdVlen : (emit b s).cmdVlen = s.cmdVlen := rfl
@[simp] theorem emit_ststat : (emit b s).ststat = s.ststat := rfl
@[simp] theorem emit_stCode : (emit b s).stCode = s.stCode := rfl
@[simp] theorem emit_obuf : (emit b s).obuf = s.obuf := rfl
@[simp] theorem emit_acc : (emit b s).acc = s.acc := rfl
@[simp] theorem emit_pending : (emit b s).pending = s.pending := rfl
@[simp] theorem emit_txStream : (emit b s).txStream = s.txStream ++ [b] := rfl
@[simp] theorem emit_hostReads : (emit b s).hostReads = s.hostReads := rfl

end

end Sys2Proof.Machine
end

