-- ==== Sys2Proof/Laws/Ops.lean ====
section
/-! SUPPORT. One lemma for each shared operation that says everything it can do, and one for each meaning: if it answers
a next state, then one of these cases holds. -/

namespace Sys2Proof.Machine

/-! ### The shared operations -/

@[simp] theorem raiseOpError_next {c : OpErr} {s t : State} :
    raiseOpError c s = .next t ↔ t = { s with operr := c } := by simp [raiseOpError, eq_comm]

@[simp] theorem complete_next {s t : State} : complete s = .next t ↔ t = { s with operr := .ok } := by
  simp [complete, eq_comm]

/-- When `MemRead` answers, and what (00_scope.md R15). -/
theorem memRead_ok {i n : Nat} {s : State} {bs : List Byte} :
    memRead i n s = .ok bs ↔ i + n ≤ s.ilen ∧ s.ibuf.readMany? i n = some bs := by
  unfold memRead
  split
  · split <;> simp_all
  · simp_all

/-- When `MemWrite` answers, and what (00_scope.md R15). -/
theorem memWrite_ok {i : Nat} {v : List Byte} {s t : State} :
    memWrite i v s = .ok t ↔
      i + v.length ≤ s.params.ibufSize ∧ t = { s with ibuf := s.ibuf.writeMany i v } := by
  unfold memWrite
  split <;> simp_all [eq_comm]

theorem withAccess_next {α : Type} {r : Except Fault α} {go : α → Result} {t : State} :
    withAccess r go = .next t ↔ ∃ a, r = .ok a ∧ go a = .next t := by
  unfold withAccess
  cases r <;> simp

@[simp] theorem withAccess_ok {α : Type} (a : α) (go : α → Result) : withAccess (.ok a) go = go a := rfl

/-- What the check of ENCODE and SEND does (42_command_codec.md R172, R173). -/
theorem withFreePort_next {v : List Byte} {s t : State} {go : Result} (h : withFreePort v s go = .next t) :
    ((0 < s.obuf.length ∨ s.capstat.active = true) ∧ t = { s with operr := .busy }) ∨
    (s.obuf = [] ∧ s.capstat.active = false ∧ s.params.vmax < v.length ∧ t = { s with operr := .tooLong }) ∨
    (s.obuf = [] ∧ s.capstat.active = false ∧ v.length ≤ s.params.vmax ∧ go = .next t) := by
  unfold withFreePort State.obufCount at h
  split at h
  · next hb => exact .inl ⟨hb, raiseOpError_next.mp h⟩
  · next hb =>
    simp only [not_or, Nat.not_lt, Nat.le_zero, List.length_eq_zero_iff, Bool.not_eq_true] at hb
    split at h
    · next hl => exact .inr (.inl ⟨hb.1, hb.2, hl, raiseOpError_next.mp h⟩)
    · next hl => exact .inr (.inr ⟨hb.1, hb.2, by omega, h⟩)

/-- The buffer's span below ILEN reads as `bufferBytes` whenever all of it is listed. -/
theorem bufferHolds_of_listed {s : State} (h : ∀ i, i < s.ilen → (s.ibuf.read? i).isSome = true) :
    BufferHolds s (bufferBytes s) := by
  have := Memory.readMany?_isSome_iff (m := s.ibuf) (i := 0) (n := s.ilen) |>.mpr (by simpa using h)
  obtain ⟨bs, hbs⟩ := Option.isSome_iff_exists.mp this
  simp [BufferHolds, bufferBytes, hbs]

theorem BufferHolds.length {s : State} {bs : List Byte} (h : BufferHolds s bs) : bs.length = s.ilen :=
  Memory.readMany?_length h

theorem BufferHolds.bufferBytes {s : State} {bs : List Byte} (h : BufferHolds s bs) : bufferBytes s = bs := by
  have h' : s.ibuf.readMany? 0 s.ilen = some bs := h
  simp [Machine.bufferBytes, h']

theorem BufferHolds.listed {s : State} {bs : List Byte} (h : BufferHolds s bs) :
    ∀ i, i < s.ilen → (s.ibuf.read? i).isSome = true := by
  simpa using Memory.readMany?_isSome_iff.mp (Option.isSome_iff_exists.mpr ⟨bs, h⟩)

/-- Reading a part of the buffer gives the slice of its contents. -/
theorem BufferHolds.memRead {s : State} {bs : List Byte} (h : BufferHolds s bs) {i n : Nat} (hin : i + n ≤ s.ilen) :
    Machine.memRead i n s = .ok (slice bs i (i + n)) := by
  obtain ⟨hl, hk⟩ := Memory.readMany?_eq_some_iff.mp h
  refine memRead_ok.mpr ⟨hin, Memory.readMany?_eq_some_iff.mpr ⟨?_, fun k hlt => ?_⟩⟩
  · rw [slice_length _ (by omega)]; omega
  · have := hk (i + k) (by omega)
    rw [Nat.zero_add] at this
    rw [this, slice, Nat.add_sub_cancel_left, List.getElem?_take_of_lt hlt, List.getElem?_drop]

theorem BufferHolds.memRead_all {s : State} {bs : List Byte} (h : BufferHolds s bs) :
    Machine.memRead 0 s.ilen s = .ok bs := memRead_ok.mpr ⟨by omega, h⟩

/-! ### The meanings -/

theorem execNop_next {s t : State} (h : execNop s = .next t) : t = { s with operr := .ok } := complete_next.mp h

theorem execCapClear_next {s t : State} (h : execCapClear s = .next t) :
    t = { s with
      ilen := 0
      capstat := { s.capstat with active := false, ended := .none, rxlost := false }
      extstat := { s.extstat with state := .none }
      cmdstat := { s.cmdstat with res := .none }
      operr := .ok } := complete_next.mp h

theorem execCapArm_next {p : Pair} {s t : State} (h : execCapArm p s = .next t) :
    (s.capstat.active = true ∧ t = { s with operr := .busy }) ∨
    (s.capstat.active = false ∧ t = { armCapture p s with operr := .ok }) := by
  unfold execCapArm at h
  split at h
  · next ha => exact .inl ⟨ha, raiseOpError_next.mp h⟩
  · next ha => exact .inr ⟨by simpa using ha, complete_next.mp h⟩

theorem execIbufLoad_next {bytes : List Byte} {s t : State} (h : execIbufLoad bytes s = .next t) :
    (s.capstat.active = true ∧ t = { s with operr := .busy }) ∨
    (s.capstat.active = false ∧ s.params.ibufSize < bytes.length ∧ t = { s with operr := .tooLong }) ∨
    (s.capstat.active = false ∧ bytes.length ≤ s.params.ibufSize ∧
      t = { s with
        ibuf := s.ibuf.writeMany 0 bytes
        ilen := bytes.length
        capstat := { s.capstat with ended := .loaded, rxlost := false }
        extstat := { s.extstat with state := .none }
        cmdstat := { s.cmdstat with res := .none }
        operr := .ok }) := by
  unfold execIbufLoad at h
  split at h
  · next ha => exact .inl ⟨ha, raiseOpError_next.mp h⟩
  · next ha =>
    split at h
    · next hl => exact .inr (.inl ⟨by simpa using ha, hl, raiseOpError_next.mp h⟩)
    · next hl =>
      obtain ⟨u, hu, hc⟩ := withAccess_next.mp h
      obtain ⟨-, rfl⟩ := memWrite_ok.mp hu
      exact .inr (.inr ⟨by simpa using ha, by omega, complete_next.mp hc⟩)

theorem execExtract_next {p : Pair} {s t : State} (h : execExtract p s = .next t) :
    (s.capstat.active = true ∧ t = { s with operr := .notReady }) ∨
    (∃ bytes, s.capstat.active = false ∧ BufferHolds s bytes ∧
      t = { s with
        extstat := { state := (scanFrame p bytes).state, pair := p, leadTail := (scanFrame p bytes).leadTail }
        extHpos := (scanFrame p bytes).hpos
        extStart := (scanFrame p bytes).start
        extLen := (scanFrame p bytes).len
        operr := .ok }) := by
  unfold execExtract at h
  split at h
  · next ha => exact .inl ⟨ha, raiseOpError_next.mp h⟩
  · next ha =>
    obtain ⟨bytes, hb, hc⟩ := withAccess_next.mp h
    exact .inr ⟨bytes, by simpa using ha, (memRead_ok.mp hb).2, complete_next.mp hc⟩

theorem execDecodeReport_next {s t : State} (h : execDecodeReport s = .next t) :
    (s.extstat.state = .none ∧ t = { s with operr := .notReady }) ∨
    (s.extstat.state ≠ .none ∧ ∃ why, why ≠ .none ∧ t = { reportCorrupt why s with operr := .ok }) ∨
    (∃ P, s.extstat.state = .found ∧ s.extstat.pair = .report ∧ s.extLen = 15 ∧
      memRead (s.extStart + 4) 9 s = .ok P ∧ t = { reportValid P s with operr := .ok }) := by
  unfold execDecodeReport at h
  split at h
  · next h0 => exact .inl ⟨h0, raiseOpError_next.mp h⟩
  · next h0 =>
    split at h
    · exact .inr (.inl ⟨h0, .noFrame, by simp, complete_next.mp h⟩)
    · next h1 =>
      split at h
      · exact .inr (.inl ⟨h0, .wrongPair, by simp, complete_next.mp h⟩)
      · next h2 =>
        split at h
        · exact .inr (.inl ⟨h0, .badLength, by simp, complete_next.mp h⟩)
        · next h3 =>
          obtain ⟨P, hP, hc⟩ := withAccess_next.mp h
          exact .inr (.inr ⟨P, by simpa using h1, by simpa using h2, by simpa using h3, hP, complete_next.mp hc⟩)

theorem execCmdParse_next {s t : State} (h : execCmdParse s = .next t) :
    (s.extstat.state = .none ∧ t = { s with operr := .notReady }) ∨
    (s.extstat.state ≠ .none ∧ ∃ r, (r = .noFrame ∨ r = .short) ∧ t = { parseFailed r s with operr := .ok }) ∨
    (∃ B, s.extstat.state = .found ∧ s.extstat.pair = .command ∧ 4 ≤ s.extLen ∧
      memRead s.extStart s.extLen s = .ok B ∧ t = { parseBody B s with operr := .ok }) := by
  unfold execCmdParse at h
  split at h
  · next h0 => exact .inl ⟨h0, raiseOpError_next.mp h⟩
  · next h0 =>
    split at h
    · exact .inr (.inl ⟨h0, .noFrame, by simp, complete_next.mp h⟩)
    · next h1 =>
      split at h
      · exact .inr (.inl ⟨h0, .short, by simp, complete_next.mp h⟩)
      · next h2 =>
        obtain ⟨B, hB, hc⟩ := withAccess_next.mp h
        simp only [not_or, not_not] at h1
        exact .inr (.inr ⟨B, h1.1, h1.2, by omega, hB, complete_next.mp hc⟩)

theorem execEncode_next {w : Word} {v : List Byte} {s t : State} (h : execEncode w v s = .next t) :
    ((0 < s.obuf.length ∨ s.capstat.active = true) ∧ t = { s with operr := .busy }) ∨
    (s.obuf = [] ∧ s.capstat.active = false ∧ s.params.vmax < v.length ∧ t = { s with operr := .tooLong }) ∨
    (s.obuf = [] ∧ s.capstat.active = false ∧ v.length ≤ s.params.vmax ∧
      t = { s with obuf := s.obuf ++ cmdframe w v, operr := .ok }) := by
  obtain h | h | ⟨h1, h2, h3, h4⟩ := withFreePort_next h
  · exact .inl h
  · exact .inr (.inl h)
  · exact .inr (.inr ⟨h1, h2, h3, complete_next.mp h4⟩)

theorem execSend_next {w : Word} {v : List Byte} {s t : State} (h : execSend w v s = .next t) :
    ((0 < s.obuf.length ∨ s.capstat.active = true) ∧ t = { s with operr := .busy }) ∨
    (s.obuf = [] ∧ s.capstat.active = false ∧ s.params.vmax < v.length ∧ t = { s with operr := .tooLong }) ∨
    (s.obuf = [] ∧ s.capstat.active = false ∧ v.length ≤ s.params.vmax ∧
      t = { armCapture .command (obufPush (cmdframe w v) s) with operr := .ok }) := by
  obtain h | h | ⟨h1, h2, h3, h4⟩ := withFreePort_next h
  · exact .inl h
  · exact .inr (.inl h)
  · exact .inr (.inr ⟨h1, h2, h3, complete_next.mp h4⟩)

theorem execTxFlush_next {s t : State} (h : execTxFlush s = .next t) :
    t = { s with obuf := [], operr := .ok } := complete_next.mp h

theorem execDecodeStatus_next {a : AccSel} {s t : State} (h : execDecodeStatus a s = .next t) :
    (s.capstat.active = true ∧ t = { s with operr := .notReady }) ∨
    (s.capstat.active = false ∧ ∃ r, r ≠ .success ∧ r ≠ .failure ∧
      t = { statusResult a r 0#16 s with operr := .ok }) ∨
    (∃ R, s.capstat.active = false ∧ s.capstat.ended ≠ .timeout ∧ s.capstat.ended ≠ .full ∧ 10 ≤ s.ilen ∧
      memRead 8 2 s = .ok R ∧
      t = { statusResult a (if le16 (byteAt R 0) (byteAt R 1) ∈ accset a s then .success else .failure)
              (le16 (byteAt R 0) (byteAt R 1)) s with operr := .ok }) := by
  unfold execDecodeStatus at h
  split at h
  · next ha => exact .inl ⟨ha, raiseOpError_next.mp h⟩
  · next ha =>
    have ha' : s.capstat.active = false := by simpa using ha
    split at h
    · exact .inr (.inl ⟨ha', .timeout, by simp, by simp, complete_next.mp h⟩)
    · next h1 =>
      split at h
      · exact .inr (.inl ⟨ha', .overflow, by simp, by simp, complete_next.mp h⟩)
      · next h2 =>
        split at h
        · exact .inr (.inl ⟨ha', .truncated, by simp, by simp, complete_next.mp h⟩)
        · next h3 =>
          obtain ⟨R, hR, hc⟩ := withAccess_next.mp h
          exact .inr (.inr ⟨R, ha', h1, h2, by omega, hR, complete_next.mp hc⟩)

theorem execAccWr_next {idx : BitVec 4} {valid : Bool} {code : Word} {s t : State}
    (h : execAccWr idx valid code s = .next t) :
    (s.params.nacc ≤ idx.toNat ∧ t = { s with operr := .badIndex }) ∨
    (idx.toNat < s.params.nacc ∧
      t = { s with acc := s.acc.set idx.toNat { valid := valid, code := code }, operr := .ok }) := by
  unfold execAccWr at h
  split at h
  · next hi => exact .inl ⟨hi, raiseOpError_next.mp h⟩
  · next hi => exact .inr ⟨by omega, complete_next.mp h⟩

theorem evRx_next {b : Byte} {s t : State} (h : evRx b s = .next t) :
    (s.capstat.active = false ∧ t = { s with capstat := { s.capstat with rxlost := true } }) ∨
    (∃ bytes u, s.capstat.active = true ∧ s.ilen + 1 ≤ s.params.ibufSize ∧
      u = { s with
        ibuf := s.ibuf.write s.ilen b
        ilen := s.ilen + 1
        extstat := { s.extstat with state := .none }
        cmdstat := { s.cmdstat with res := .none } } ∧
      BufferHolds u bytes ∧
      ((endsWith bytes (tailOf s.capstat.pair) = true ∧ t = endCapture .tail u) ∨
       (endsWith bytes (tailOf s.capstat.pair) = false ∧ s.ilen + 1 = s.params.ibufSize ∧ t = endCapture .full u) ∨
       (endsWith bytes (tailOf s.capstat.pair) = false ∧ s.ilen + 1 ≠ s.params.ibufSize ∧ t = u))) := by
  unfold evRx at h
  split at h
  · next ha => exact .inl ⟨ha, by simpa [eq_comm] using h⟩
  · next ha =>
    obtain ⟨w, hw, hc⟩ := withAccess_next.mp h
    obtain ⟨hlen, rfl⟩ := memWrite_ok.mp hw
    obtain ⟨bytes, hb, hc⟩ := withAccess_next.mp hc
    refine .inr ⟨bytes, _, by simpa using ha, by simpa using hlen, rfl, (memRead_ok.mp hb).2, ?_⟩
    split at hc
    · next he => exact .inl ⟨he, (Host.Outcome.next.inj hc).symm⟩
    · next he =>
      have he' := Bool.eq_false_iff.mpr he
      split at hc
      · next hf => exact .inr (.inl ⟨he', hf, (Host.Outcome.next.inj hc).symm⟩)
      · next hf => exact .inr (.inr ⟨he', hf, (Host.Outcome.next.inj hc).symm⟩)

/-- What a received byte does to an active capture with room for it (40_frame_extractor.md R105). -/
theorem evRx_of_active {b : Byte} {s : State} {bytes : List Byte} (ha : s.capstat.active = true)
    (hb : BufferHolds s bytes) (hlt : s.ilen < s.params.ibufSize) :
    ∃ u, u = { s with
        ibuf := s.ibuf.write s.ilen b
        ilen := s.ilen + 1
        extstat := { s.extstat with state := .none }
        cmdstat := { s.cmdstat with res := .none } } ∧
      BufferHolds u (bytes ++ [b]) ∧
      evRx b s =
        if endsWith (bytes ++ [b]) (tailOf s.capstat.pair) = true then .next (endCapture .tail u)
        else if s.ilen + 1 = s.params.ibufSize then .next (endCapture .full u)
        else .next u := by
  have hnew := Memory.readMany?_write_end b hb
  refine ⟨_, rfl, hnew, ?_⟩
  have hw : memWrite s.ilen [b] s = .ok { s with ibuf := s.ibuf.write s.ilen b } :=
    memWrite_ok.mpr ⟨by simp; omega, rfl⟩
  unfold evRx
  rw [if_neg (by simp [ha]), hw]
  simp only [withAccess_ok]
  rw [show memRead 0 _ _ = .ok (bytes ++ [b]) from memRead_ok.mpr ⟨by omega, hnew⟩]
  rfl

theorem evTimeout_next {s t : State} (h : evTimeout s = .next t) :
    (s.capstat.active = true ∧ t = endCapture .timeout s) ∨ (s.capstat.active = false ∧ t = s) := by
  unfold evTimeout at h
  split at h
  · next ha => exact .inl ⟨ha, by simpa [eq_comm] using h⟩
  · next ha => exact .inr ⟨by simpa using ha, by simpa [eq_comm] using h⟩

theorem evTx_next {s t : State} (h : evTx s = .next t) :
    (s.obuf = [] ∧ t = s) ∨
    (∃ b rest, s.obuf = b :: rest ∧ t = { s with obuf := rest, txStream := s.txStream ++ [b] }) := by
  unfold evTx at h
  split at h
  · next he => exact .inl ⟨he, by simpa [eq_comm] using h⟩
  · next b rest he => exact .inr ⟨b, rest, he, by simpa [emit, eq_comm] using h⟩

theorem evRdreg_next {n : Word} {s t : State} (h : evRdreg n s = .next t) :
    t = { s with hostReads := s.hostReads ++ [.reg n (regValue s n)] } := by
  simpa [evRdreg, rdreg, eq_comm] using h

theorem evRdbuf_next {i : Word} {s t : State} (h : evRdbuf i s = .next t) :
    ∃ b, rdbuf i s = .ok b ∧ t = { s with hostReads := s.hostReads ++ [.buf i b] } := by
  obtain ⟨b, hb, hc⟩ := withAccess_next.mp h
  exact ⟨b, hb, by simpa [eq_comm] using hc⟩

theorem evReset_next {s t : State} (h : evReset s = .next t) :
    t = { State.resetWith s.params with
      pending := s.pending, txStream := s.txStream, hostReads := s.hostReads } := by
  simpa [evReset, eq_comm] using h

/-! ### The step -/

/-- What a step can be: waiting, or one agent step taken from the schedule (00_scope.md R5). -/
theorem step_next {s t : State} (h : step s = .next t) :
    (s.pending = [] ∧ t = s) ∨
    (∃ e rest, s.pending = e :: rest ∧ runEvent e { s with pending := rest } = .next t) := by
  unfold step takeEvent at h
  cases hp : s.pending with
  | nil => simp only [hp] at h; exact .inl ⟨rfl, by simpa [eq_comm] using h⟩
  | cons e rest => simp only [hp] at h; exact .inr ⟨e, rest, rfl, h⟩

theorem step_cons {s : State} {e : Event} {rest : List Event} (h : s.pending = e :: rest) :
    step s = runEvent e { s with pending := rest } := by
  simp [step, takeEvent, h]

theorem step_nil {s : State} (h : s.pending = []) : step s = .next s := by simp [step, takeEvent, h]

/-- An illegal op word raises ILLEGAL; every other one runs its operation (30_encoding.md R75). -/
theorem runRequest_next {q : OpRequest} {s t : State} (h : runRequest q s = .next t) :
    ((∃ e, decode q = .error e) ∧ t = { s with operr := .illegal }) ∨
    (∃ i, decode q = .ok i ∧ exec i s = .next t) := by
  unfold runRequest at h
  cases hd : decode q with
  | error e => simp only [hd] at h; exact .inl ⟨⟨e, rfl⟩, raiseOpError_next.mp h⟩
  | ok i => simp only [hd] at h; exact .inr ⟨i, rfl, h⟩

end Sys2Proof.Machine
end

