-- ==== Sys2Proof/Laws/PerInstr.lean ====
section
/-! SUPPORT. The family OpWord: the op word the encoder gives an operation selects the operation's own row of the opcode
map (30_encoding.md R73). -/

namespace Sys2Proof.Laws.OpWord

/-- The encoded op word selects a row of the opcode map with the operation's mnemonic (30_encoding.md R73). -/
def Statement (i : Instr) : Prop :=
  ∃ r ∈ opRows, r.mnemonic = i.mnemonic ∧ r.selects (Sys2Proof.encode i).opw = true

/-- The op word with no operand in it selects the named row. -/
theorem row_of_opWord {i : Instr} {name : String} {w : Word} (hn : i.mnemonic = name) (hw : opWord i = w)
    (h : ∃ r ∈ opRows, r.mnemonic = name ∧ r.selects w = true) : Statement i := by
  subst hn hw; exact h

theorem nop : Statement .nop := row_of_opWord rfl rfl (by decide)

theorem capClear : Statement .capClear := row_of_opWord rfl rfl (by decide)

theorem capArm (p : Pair) : Statement (.capArm p) := by cases p <;> exact row_of_opWord rfl rfl (by decide)

theorem ibufLoad (bytes : List Byte) : Statement (.ibufLoad bytes) :=
  row_of_opWord (name := "IBUF_LOAD") (w := 0x3000#16) rfl rfl (by decide)

theorem extract (p : Pair) : Statement (.extract p) := by cases p <;> exact row_of_opWord rfl rfl (by decide)

theorem decodeReport : Statement .decodeReport := row_of_opWord rfl rfl (by decide)

theorem cmdParse : Statement .cmdParse := row_of_opWord rfl rfl (by decide)

theorem encode (w : Word) (v : List Byte) : Statement (.encode w v) :=
  row_of_opWord (name := "ENCODE") (w := 0x7000#16) rfl rfl (by decide)

theorem send (w : Word) (v : List Byte) : Statement (.send w v) :=
  row_of_opWord (name := "SEND") (w := 0x8000#16) rfl rfl (by decide)

theorem decodeStatus (a : AccSel) : Statement (.decodeStatus a) := by
  cases a <;> exact row_of_opWord rfl rfl (by decide)

theorem accWr (idx : BitVec 4) (valid : Bool) (code : Word) : Statement (.accWr idx valid code) :=
  row_of_opWord (name := "ACC_WR") (w := 0xA#4 ++ 0#7 ++ BitVec.ofBool valid ++ idx) rfl rfl <| by
    revert valid idx; decide

theorem txFlush : Statement .txFlush := row_of_opWord rfl rfl (by decide)

end Sys2Proof.Laws.OpWord
end

