-- ==== Sys2Proof/Tests/Slice0.lean ====
section
/-! SUPPORT. The model's own tests. Expected results come from the spec: op words from 30_encoding.md R73, R87 and
95_test_vectors.md 2.8, values from the vectors of 95_test_vectors.md section 2, named in each comment. After them, one
witness for each statement that has hypotheses: concrete states and operands that meet them, clause by clause. -/

namespace Sys2Proof.Tests

open Sys2Proof.Machine

/-! ### Helpers -/

/-- The block after reset with the parameters of most capture vectors (95_test_vectors.md 2.1). -/
abbrev start : State := State.resetWith { ibufSize := 23, vmax := 2, nacc := 4 }

/-- A block whose buffer the host has loaded with these bytes. -/
abbrev loaded (bytes : List Byte) : State :=
  { start with
    ibuf := Memory.writeMany [] 0 bytes
    ilen := bytes.length
    capstat := { start.capstat with ended := .loaded } }

/-- A block with a capture for p active that holds these bytes. -/
abbrev capturing (p : Pair) (bytes : List Byte) : State :=
  { loaded bytes with capstat := { active := true, pair := p, ended := .none, rxlost := false } }

/-- A block with a frame body of pair p found at index 4 of these bytes. -/
abbrev extracted (p : Pair) (len : Nat) (bytes : List Byte) : State :=
  { loaded bytes with
    extstat := { state := .found, pair := p, leadTail := false }
    extHpos := 0
    extStart := 4
    extLen := len }

/-- The state a result answers, if any. -/
abbrev after (r : Result) : Option State :=
  match r with
  | .next t => some t
  | .fault _ => none
  | .refused _ => none

/-- A field of the state a result answers. -/
abbrev seen {α : Type} (f : State → α) (r : Result) : Option α := (after r).map f

/-- The value of register n, as the host reads it. -/
abbrev reg (n : Word) (s : State) : Nat := (regValue s n).toNat

/-- The report frame of the source's vector (95_test_vectors.md 1.1, P1): 23 bytes, body of 15. -/
abbrev vectorFrame : List Byte :=
  reportFrame [0x0D, 0x00, 0x02, 0xAA] [0x02, 0x00, 0x00, 0x00, 0x64, 0x00, 0x32, 0x64, 0x00] [0x55, 0x00]

/-- `resp(c)` with the code bytes given (95_test_vectors.md 2.7). -/
abbrev resp (lo hi : Byte) : List Byte :=
  [0xFD, 0xFC, 0xFB, 0xFA, 0x04, 0x00, 0xFE, 0x01, lo, hi, 0x04, 0x03, 0x02, 0x01]

/-! ### WellFormed: the one check, on each constructor that has the operand (30_encoding.md R70) -/

theorem test_wellFormed_accepts_longest (v : List Byte) (h : v.length = 65535) : presentableBytes v = true := by
  simp only [presentableBytes, maxDbytes, decide_eq_true_eq]; omega

theorem test_wellFormed_refuses_long_load (v : List Byte) (h : v.length = 65536) :
    (Instr.ibufLoad v).wellFormed = false := by
  simp only [Instr.wellFormed, presentableBytes, maxDbytes, decide_eq_false_iff_not]; omega

theorem test_wellFormed_refuses_long_encode (v : List Byte) (h : v.length = 65536) :
    (Instr.encode 0#16 v).wellFormed = false := by
  simp only [Instr.wellFormed, presentableBytes, maxDbytes, decide_eq_false_iff_not]; omega

theorem test_wellFormed_refuses_long_send (v : List Byte) (h : v.length = 65536) :
    (Instr.send 0#16 v).wellFormed = false := by
  simp only [Instr.wellFormed, presentableBytes, maxDbytes, decide_eq_false_iff_not]; omega

theorem test_presentable_refuses_long (v : List Byte) (h : v.length = 65536) :
    (OpRequest.mk 0#16 0#16 v).presentable = false := by
  simp only [OpRequest.presentable, presentableBytes, maxDbytes, decide_eq_false_iff_not]; omega

/-- A byte sequence of the length the checks above refuse. -/
theorem witness_long_bytes : ∃ v : List Byte, v.length = 65536 := ⟨List.replicate 65536 0#8, List.length_replicate ..⟩

/-! ### Decode: each constructor by an op word written out bit by bit (30_encoding.md R73) -/

theorem test_decode_nop : decode ⟨0b0000000000000000#16, 0, []⟩ = .ok .nop := by decide
theorem test_decode_capClear : decode ⟨0b0001000000000000#16, 0, []⟩ = .ok .capClear := by decide
theorem test_decode_capArm : decode ⟨0b0010000000000001#16, 0, []⟩ = .ok (.capArm .command) := by decide
theorem test_decode_ibufLoad : decode ⟨0b0011000000000000#16, 0, [0xF8, 0xF7]⟩ = .ok (.ibufLoad [0xF8, 0xF7]) := by
  decide
theorem test_decode_extract : decode ⟨0b0100000000000000#16, 0, []⟩ = .ok (.extract .report) := by decide
theorem test_decode_decodeReport : decode ⟨0b0101000000000000#16, 0, []⟩ = .ok .decodeReport := by decide
theorem test_decode_cmdParse : decode ⟨0b0110000000000000#16, 0, []⟩ = .ok .cmdParse := by decide
theorem test_decode_encode : decode ⟨0b0111000000000000#16, 0x1234, [0xAA]⟩ = .ok (.encode 0x1234 [0xAA]) := by
  decide
theorem test_decode_send : decode ⟨0b1000000000000000#16, 0x00FF, [1, 0]⟩ = .ok (.send 0x00FF [1, 0]) := by decide
theorem test_decode_decodeStatus : decode ⟨0b1001000000000010#16, 0, []⟩ = .ok (.decodeStatus .user) := by decide
theorem test_decode_accWr : decode ⟨0b1010000000010110#16, 0xBEEF, []⟩ = .ok (.accWr 6 true 0xBEEF) := by decide
theorem test_decode_txFlush : decode ⟨0b1011000000000000#16, 0, []⟩ = .ok .txFlush := by decide

/-- The illegal op words of 95_test_vectors.md 2.8. -/
theorem test_decode_illegal :
    [0x0001, 0x1001, 0x3001, 0x5001, 0x6001, 0x7001, 0x8001, 0xB001, 0x2002, 0x4002, 0x9003, 0x9004, 0xA020, 0xA800,
      0xC000, 0xD123, 0xFFFF].map (fun w => (decode ⟨w, 0, []⟩).toBool) = List.replicate 17 false := by decide

theorem test_decodeTableWord : decodeTableWord 16 0xA01F = some (.accWr 15 true 0) ∧ decodeTableWord 16 0xC000 = none := by
  decide

theorem test_withFetchWord : seen State.operr (step (State.reset.withFetchWord 16 0x5000)) = some .notReady ∧
    seen State.operr (step (State.reset.withFetchWord 16 0xFFFF)) = some .illegal := by decide

/-! ### The operations -/

/-- NOP clears an earlier error code (43_control.md R220, example). -/
theorem test_nop : exec .nop { start with operr := .busy } = .next start := rfl

/-- CP10: PAIR kept, END NONE, ILEN 0. -/
theorem test_capClear : (seen (reg 1) (exec .capClear (capturing .command [0xFD, 0xFC])),
    seen (reg 2) (exec .capClear (capturing .command [0xFD, 0xFC]))) = (some 0x0002, some 0) := by decide

/-- CP6, CP7. -/
theorem test_capArm : seen (reg 1) (exec (.capArm .report) start) = some 0x0001 ∧
    seen (reg 0) (exec (.capArm .command) (capturing .report [])) = some 3 := by decide

/-- CP11. -/
theorem test_ibufLoad : seen (reg 1) (exec (.ibufLoad [0xF8, 0xF7, 0xF6, 0xF5]) start) = some 0x0010 ∧
    seen State.ibuf (exec (.ibufLoad [0xF8, 0xF7]) (loaded [1, 2, 3])) = some [(0, 0xF8), (1, 0xF7), (2, 3)] := by
  decide

/-- CP12, CP13: TOO_LONG, and BUSY before it. -/
theorem test_ibufLoad_errors : seen (reg 0) (exec (.ibufLoad (List.replicate 24 0)) start) = some 5 ∧
    seen (reg 0) (exec (.ibufLoad (List.replicate 24 0)) (capturing .report [])) = some 3 := by decide

/-- XT12: the leading tail is ignored and reported. -/
theorem test_extract_leadTail :
    (after (exec (.extract .report)
      (loaded [0xF8, 0xF7, 0xF6, 0xF5, 0xF4, 0xF3, 0xF2, 0xF1, 0xAA, 0xBB, 0xF8, 0xF7, 0xF6, 0xF5]))).map
      (fun t => [reg 3 t, reg 4 t, reg 5 t, reg 6 t]) = some [0x0009, 4, 8, 2] := by decide

/-- XT13: no header, a tail present. -/
theorem test_extract_noHeader :
    seen (reg 3) (exec (.extract .report) (loaded [0xF4, 0xF3, 0xF8, 0xF7, 0xF6, 0xF5])) = some 0x000A := by decide

/-- RP7: the sign bits are dropped. -/
theorem test_decodeReport_signs :
    (after (exec .decodeReport (extracted .report 15 (reportFrame [0x0D, 0x00, 0x02, 0xAA]
      [0x03, 0x64, 0x80, 0xFF, 0xFF, 0xFF, 0x00, 0x00, 0x80] [0x55, 0x00])))).map
      (fun t => [reg 7 t, reg 8 t, reg 9 t, reg 10 t, reg 11 t, reg 12 t, reg 13 t]) =
      some [0x000D, 3, 100, 255, 32767, 0, 0] := by decide

/-- RP8: a body of 14 bytes. -/
theorem test_decodeReport_short : seen (reg 7) (exec .decodeReport (extracted .report 14 vectorFrame)) = some 0x0062 := by
  decide

/-- CK2: a declared length that disagrees with the body. -/
theorem test_cmdParse :
    (after (exec .cmdParse (extracted .command 5
      [0xFD, 0xFC, 0xFB, 0xFA, 0x09, 0x00, 0x34, 0x12, 0xAA, 0x04, 0x03, 0x02, 0x01]))).map
      (fun t => [reg 14 t, reg 15 t, reg 16 t, reg 17 t, reg 18 t]) = some [0x0005, 9, 0x1234, 8, 1] := by decide

/-- CK3: a body of 3 bytes. -/
theorem test_cmdParse_short : seen (reg 14) (exec .cmdParse
    (extracted .command 3 [0xFD, 0xFC, 0xFB, 0xFA, 0x02, 0x00, 0x62, 0x04, 0x03, 0x02, 0x01])) = some 3 := by decide

/-- The frame of 95_test_vectors.md EN2. -/
theorem test_encode : seen State.obuf (exec (.encode 0xFFFF []) start) =
    some [0xFD, 0xFC, 0xFB, 0xFA, 0x02, 0x00, 0xFF, 0xFF, 0x04, 0x03, 0x02, 0x01] := by decide

/-- EN4, EN5: TOO_LONG with VMAX = 2, and BUSY before it. -/
theorem test_encode_errors : seen (reg 0) (exec (.encode 1 [1, 2, 3]) start) = some 5 ∧
    seen (reg 0) (exec (.encode 1 [1, 2, 3]) (capturing .report [])) = some 3 := by decide

/-- EN9. -/
theorem test_send : (after (exec (.send 0x00FF [1, 0]) start)).map (fun t => [reg 0x15 t, reg 1 t, reg 2 t]) =
    some [14, 0x0003, 0] := by decide

/-- ST8, and ST10: no bit-mask reading. -/
theorem test_decodeStatus :
    (after (exec (.decodeStatus .enterConfig) (loaded (resp 0xA0 0x80)))).map (fun t => [reg 0x13 t, reg 0x14 t]) =
      some [0x0009, 0x80A0] ∧
    seen (reg 0x13) (exec (.decodeStatus .enterConfig) (loaded (resp 0x00 0x80))) = some 0x000A := by decide

/-- ST14: TIMEOUT although offsets 8–9 hold 0. -/
theorem test_decodeStatus_timeout :
    seen (reg 0x13) (exec (.decodeStatus .default)
      { loaded (resp 0 0) with capstat := { start.capstat with pair := .command, ended := .timeout } }) = some 4 := by
  decide

/-- AL1, AL2. -/
theorem test_accWr : (after (exec (.accWr 0 true 1) start)).map (fun t => [reg 0x19 t, reg 0x20 t]) = some [1, 1] ∧
    seen (reg 0) (exec (.accWr 4 false 5) start) = some 2 := by decide

theorem test_txFlush : seen (reg 0x15) (exec .txFlush { start with obuf := [1, 2] }) = some 0 := by decide

/-! ### The events and read ports -/

/-- CP5, and CP1's ninth byte: the partial tail before it did not end the capture. -/
theorem test_rx : seen (reg 1) (runEvent (.rx 0x55) start) = some 0x0020 ∧
    seen (reg 1) (runEvent (.rx 1) (capturing .command [0xFD, 0xFC, 4, 3, 2, 4, 3, 2])) = some 0x0006 := by decide

/-- CP3's and CP4's last byte: FULL, and TAIL before FULL. -/
theorem test_rx_full :
    seen (reg 1) (runEvent (.rx 0x11) (capturing .report (List.replicate 22 0x11))) = some 0x000C ∧
    seen (reg 1) (runEvent (.rx 0xF5) (capturing .report (List.replicate 19 0x11 ++ [0xF8, 0xF7, 0xF6]))) =
      some 0x0004 := by decide

/-- CP8, CP9. -/
theorem test_timeout : seen (reg 1) (runEvent .timeout (capturing .command [0xFD])) = some 0x000A ∧
    after (runEvent .timeout start) = some start := by decide

theorem test_tx : (after (runEvent .tx { start with obuf := [0xFD, 0xFC] })).map (fun t => (t.obuf, t.txStream)) =
    some ([0xFC], [0xFD]) := by decide

theorem test_rdbuf : seen State.hostReads (runEvent (.rdbuf 1) (loaded [7, 8])) = some [.buf 1 8] ∧
    seen State.hostReads (runEvent (.rdbuf 2) { loaded [7, 8, 9] with ilen := 2 }) = some [.buf 2 0] := by decide

theorem test_rdreg : seen State.hostReads (runEvent (.rdreg 0x16) start) = some [.reg 0x16 23] ∧
    seen State.hostReads (runEvent (.rdreg 0x24) start) = some [.reg 0x24 0] := by decide

theorem test_reset_event : after (runEvent .reset { capturing .command [1] with obuf := [2] }) = some start := by decide

/-! ### Witnesses: the hypotheses of each statement are met -/

theorem witness_DecodeInvertsEncode : (Instr.send 0x00FF [1, 0]).wellFormed = true ∧
    decode ⟨0x9001#16, 5, [6]⟩ = .ok (.decodeStatus .enterConfig) ∧ (OpRequest.mk 0x9001#16 5 [6]).presentable = true := by
  decide

theorem witness_IllegalOpWordsWriteOnlyOperr :
    decode ⟨0xC000#16, 0, []⟩ = .error .reservedOpcode ∧ decode ⟨0x0001#16, 0, []⟩ = .error .reservedBits ∧
    decode ⟨0x4002#16, 0, []⟩ = .error .reservedBits ∧ decode ⟨0x9003#16, 0, []⟩ = .error .reservedAsel ∧
    decode ⟨0xA020#16, 0, []⟩ = .error .reservedBits ∧
    { start with pending := [.op ⟨0xC000#16, 0, []⟩] }.pending = [.op ⟨0xC000#16, 0, []⟩] := by decide

theorem witness_UnusedOperandsAreIgnored : (0x6000#16).toNat / 4096 ∉ [0x3, 0x7, 0x8] ∧
    (0x6000#16).toNat / 4096 ≠ 0xA ∧ (0xA01F#16).toNat / 4096 ∉ [0x3, 0x7, 0x8] := by decide

theorem witness_StepRunsTheDecodedOperation :
    { start with pending := [.op ⟨0x1000#16, 0, []⟩, .tx] }.pending = .op ⟨0x1000#16, 0, []⟩ :: [.tx] ∧
    decode ⟨0x1000#16, 0, []⟩ = .ok .capClear ∧ encode .capClear = ⟨0x1000#16, 0, []⟩ ∧ start.pending = [] := by decide

theorem witness_RejectedOperationsChangeOnlyOperr :
    (after (runRequest ⟨0xC000#16, 0, []⟩ start)).isSome = true ∧ decode ⟨0xC000#16, 0, []⟩ = .error .reservedOpcode ∧
    ErrorCause (.capArm .report) (capturing .report []) .busy :=
  ⟨by decide, by decide, .inl ⟨.inl ⟨_, rfl⟩, rfl⟩⟩

theorem witness_ErrorsFollowTheTableInPriorityOrder :
    seen State.operr (exec .nop start) = some .ok ∧ seen State.operr (exec (.accWr 4 true 0) start) = some .badIndex ∧
    seen State.operr (exec (.send 0 [1, 2, 3]) (capturing .report [])) = some .busy ∧
    seen State.operr (exec .cmdParse start) = some .notReady ∧
    seen State.operr (exec (.send 0 [1, 2, 3]) start) = some .tooLong ∧
    seen State.operr (runRequest ⟨0x9003#16, 0, []⟩ start) = some .illegal := by decide

theorem witness_NopClearsOnlyTheErrorCode :
    0x0001 ≤ (0x0001#16).toNat ∧ (0x0FFF#16).toNat ≤ 0x0FFF := by decide

theorem witness_CapClearEmptiesTheBuffer :
    seen State.operr (runRequest ⟨0x1001#16, 0, []⟩ start) = some .illegal ∧
    seen State.operr (runRequest ⟨0x1FFF#16, 0, []⟩ start) = some .illegal ∧
    0x1001 ≤ (0x1001#16).toNat ∧ (0x1FFF#16).toNat ≤ 0x1FFF := by decide

theorem witness_TxFlushDiscardsTheQueue :
    seen State.operr (runRequest ⟨0xB001#16, 0, []⟩ start) = some .illegal ∧
    seen State.operr (runRequest ⟨0xBFFF#16, 0, []⟩ start) = some .illegal ∧
    0xB001 ≤ (0xB001#16).toNat ∧ (0xBFFF#16).toNat ≤ 0xBFFF := by decide

theorem witness_CapArmStartsACapture :
    start.capstat.active = false ∧ (capturing .report []).capstat.active = true := by decide

theorem witness_IbufLoadReplacesTheBuffer :
    (capturing .report []).capstat.active = true ∧ start.capstat.active = false ∧
    start.params.ibufSize < (List.replicate 24 0#8).length ∧ (List.replicate 23 0#8).length ≤ start.params.ibufSize := by
  decide

theorem witness_ExtractFindsTheFirstFrame :
    (capturing .report []).capstat.active = true ∧ (loaded vectorFrame).capstat.active = false ∧
    BufferHolds (loaded vectorFrame) vectorFrame ∧ find vectorFrame (hdr .report) 0 = some 0 ∧
    find vectorFrame (tailOf .report) 4 = some 19 ∧ BufferHolds (loaded (hdr .report)) (hdr .report) ∧
    find (hdr .report) (tailOf .report) 4 = none ∧ BufferHolds (loaded []) [] ∧ find [] (hdr .report) 0 = none := by
  decide

theorem witness_DecodeReportDeliversTheTargetReport :
    start.extstat.state = .none ∧
    { start with extstat := ⟨.noHeader, .report, true⟩ }.extstat.state = .noHeader ∧
    { start with extstat := ⟨.noTail, .report, true⟩ }.extstat.state = .noTail ∧
    (extracted .command 15 vectorFrame).extstat.pair = .command ∧ (extracted .report 14 vectorFrame).extLen ≠ 15 ∧
    (extracted .report 15 vectorFrame).extStart + 13 ≤ (extracted .report 15 vectorFrame).ilen ∧
    (extracted .report 15 vectorFrame).ibuf.readMany? (4 + 4) 9 =
      some [0x02, 0x00, 0x00, 0x00, 0x64, 0x00, 0x32, 0x64, 0x00] := by decide

theorem witness_CmdParseSplitsTheCommandBody :
    start.extstat.state = .none ∧ { start with extstat := ⟨.noHeader, .command, true⟩ }.extstat.state = .noHeader ∧
    (extracted .report 4 []).extstat.pair = .report ∧ (extracted .command 3 []).extLen < 4 ∧
    (extracted .command 4 (cmdframe 0x62 [])).extLen = 4 + [].length (α := Byte) ∧
    (extracted .command 4 (cmdframe 0x62 [])).ibuf.readMany? 4 4 = some (0x02 :: 0x00 :: 0x62 :: 0x00 :: []) ∧
    4 + 4 ≤ (extracted .command 4 (cmdframe 0x62 [])).ilen := by decide

theorem witness_EncodeQueuesTheCommandFrame :
    { start with obuf := [1] }.obuf ≠ [] ∧ (capturing .report []).capstat.active = true ∧
    start.obuf = [] ∧ start.capstat.active = false ∧ start.params.vmax < [1, 2, 3].length (α := Byte) ∧
    [1, 2].length (α := Byte) ≤ start.params.vmax := by decide

theorem witness_SendQueuesAndArms :
    { start with obuf := [1] }.obuf ≠ [] ∧ (capturing .command []).capstat.active = true ∧
    start.obuf = [] ∧ start.capstat.active = false ∧ start.params.vmax < [1, 2, 3].length (α := Byte) ∧
    [].length (α := Byte) ≤ start.params.vmax := by decide

theorem witness_DecodeStatusJudgesTheResponse :
    (capturing .command []).capstat.active = true ∧
    { start with capstat := { start.capstat with ended := .timeout } }.capstat.ended = .timeout ∧
    { start with capstat := { start.capstat with ended := .full } }.capstat.ended = .full ∧
    (loaded (List.replicate 9 0)).ilen < 10 ∧ (loaded (List.replicate 9 0)).capstat.ended ≠ .timeout ∧
    (loaded (List.replicate 9 0)).capstat.ended ≠ .full ∧ 10 ≤ (loaded (List.replicate 10 0)).ilen ∧
    (loaded (List.replicate 10 0)).ibuf.read? 8 = some 0 ∧ (loaded (List.replicate 10 0)).ibuf.read? 9 = some 0 := by
  decide

theorem witness_AccWrWritesOneEntry :
    start.params.nacc ≤ (4#4).toNat ∧ (3#4).toNat < start.params.nacc ∧ start.acc.length = start.params.nacc ∧
    seen State.operr (runRequest ⟨0xA020#16, 0, []⟩ start) = some .illegal ∧
    seen State.operr (runRequest ⟨0xAFFF#16, 0, []⟩ start) = some .illegal ∧
    0xA020 ≤ (0xA020#16).toNat ∧ (0xAFFF#16).toNat ≤ 0xAFFF := by decide

theorem witness_DelimitersNeverOverlap :
    StandsAt vectorFrame (hdr .report) 0 ∧ StandsAt vectorFrame (tailOf .report) 19 ∧
    StandsAt (hdr .report ++ hdr .report) (hdr .report) 0 ∧ StandsAt (hdr .report ++ hdr .report) (hdr .report) 4 ∧
    StandsAt (tailOf .command ++ tailOf .command) (tailOf .command) 0 ∧
    StandsAt (tailOf .command ++ tailOf .command) (tailOf .command) 4 := by decide

theorem witness_CommandFrameLayout :
    [1, 2].length (α := Byte) ≤ 65533 ∧ start.params.Valid ∧ [1, 2].length (α := Byte) ≤ start.params.vmax := by decide

theorem witness_ValueRegistersReadTheirFields :
    Inv (loaded [1, 2, 3]) ∧ regValue (loaded [1, 2, 3]) 0x02#16 = 3#16 := ⟨by decide, by decide⟩

theorem witness_ReservedBitsAndNumbersReadZero :
    0x1A ≤ (0x1A#16).toNat ∧ (0x1F#16).toNat ≤ 0x1F ∧ 0x20 + start.params.nacc ≤ (0x24#16).toNat ∧
    start.params.nacc ≤ 4 := by decide

theorem witness_AcceptListReadsBack :
    start.params.nacc ≤ 16 ∧ 3 < start.params.nacc ∧ start.acc[3]? = some ⟨false, 0⟩ := by decide

theorem witness_RegisterReadsHaveNoEffect :
    { start with pending := [.rdreg 0x24, .rdreg 0x24] }.pending = .rdreg 0x24 :: .rdreg 0x24 :: [] ∧
    start.params.Valid ∧ (0x24#16).toNat ∉ List.range 0x1A ∧ ∀ i, i < start.params.nacc → (0x24#16).toNat ≠ 0x20 + i := by
  decide

theorem witness_BufferReadsStopAtIlen :
    { loaded [7, 8] with pending := [.rdbuf 1] }.pending = .rdbuf 1 :: [] ∧ BufferHolds (loaded [7, 8]) [7, 8] ∧
    ([7, 8] : List Byte)[(1#16).toNat]? = some 8 ∧ (loaded [7, 8]).ilen ≤ (2#16).toNat := by decide

theorem witness_ReceivedByteIsAppendedOrDropped :
    start.capstat.active = false ∧ (capturing .report [0xF8, 0xF7, 0xF6]).capstat.active = true ∧
    BufferHolds (capturing .report [0xF8, 0xF7, 0xF6]) [0xF8, 0xF7, 0xF6] ∧
    (capturing .report [0xF8, 0xF7, 0xF6]).ilen < 23 ∧
    [0xF8, 0xF7, 0xF6] ++ [0xF5] = [] ++ tailOf .report ∧
    BufferHolds (capturing .report (List.replicate 22 0)) (List.replicate 22 0) ∧
    endsWith (List.replicate 22 0 ++ [0]) (tailOf .report) = false ∧
    (capturing .report (List.replicate 22 0)).ilen + 1 = 23 := by decide

theorem witness_TimeoutEndsAnActiveCapture :
    (capturing .report []).capstat.active = true ∧ start.capstat.active = false ∧
    (capturing .report [9, 0xF8, 0xF7, 0xF6]).ilen < 23 ∧
    BufferHolds (capturing .report [9, 0xF8, 0xF7, 0xF6]) ([9] ++ (tailOf .report).take 3) ∧
    tailOf .report = (tailOf .report).take 3 ++ [0xF5] := by decide

theorem witness_QueuedBytesLeaveInOrder :
    { start with obuf := [1, 2], pending := [.tx, .tx, .reset] }.pending = Event.txs 2 ++ [.reset] ∧
    2 ≤ { start with obuf := [1, 2] }.obuf.length ∧ { start with obuf := [1, 2] }.obuf = 1 :: [2] := by decide

theorem witness_ResetClearsTheBlock :
    { State.reset with pending := [.reset] }.pending = .reset :: [] ∧ State.reset.params = State.reset.params := by decide

theorem witness_BehaviourRightAfterReset :
    start.capstat.active = false ∧
    seen (fun t => t.capstat.active) (step { start with pending := [.op (encode (.capArm .report))] }) = some true := by
  decide

theorem witness_InvariantIsKeptByEveryStep :
    Inv { capturing .report [1, 2, 3, 4] with pending := [.rx 5] } ∧
    (after (step { capturing .report [1, 2, 3, 4] with pending := [.rx 5] })).isSome = true := by decide

theorem witness_NoErrorStopsTheBlock : Inv (capturing .report [1, 2, 3, 4]) ∧ Inv start :=
  ⟨by decide, by decide⟩

theorem witness_AgentsSideMovesForward :
    (after (step { start with obuf := [1], pending := [.tx, .rdreg 0] })).map (fun t => (t.pending, t.txStream)) =
      some ([.rdreg 0], [1]) := by decide

theorem witness_ResetMeetsTheInvariant : start.params.Valid := by decide

theorem witness_ResultRegistersStayConsistent :
    ResultInv start ∧ (after (step { start with pending := [.op (encode (.decodeStatus .user))] })).isSome = true := by
  decide

theorem witness_BytesAboveIlenAreNeverVisible : SameVisible { loaded [1, 2, 3] with ilen := 2 }
    { loaded [1, 2, 9] with ilen := 2 } := ⟨rfl, by decide⟩

theorem witness_RegistersChangeOnlyAsTheMapSays :
    seen (reg 1) (step { start with pending := [.rx 5] }) = some 0x20 ∧ reg 1 start = 0 := by decide

theorem witness_ConfigurationNeverChanges :
    seen State.params (step { start with pending := [.reset] }) = some start.params := by decide

theorem witness_EventsDoNotWriteOperr :
    seen State.operr (step { start with operr := .busy, pending := [.rx 5] }) = some .busy := by decide

theorem witness_BufferChangesInvalidateTheViews :
    seen State.ilen (step { extracted .report 15 vectorFrame with pending := [.op (encode (.ibufLoad [1]))] }) = some 1 ∧
    (extracted .report 15 vectorFrame).ilen = 23 := by decide

theorem witness_StalePositionsAreNeverUsed :
    (loaded vectorFrame).extstat.state = .none ∧
    seen (fun t => t.extstat.state) (step { loaded vectorFrame with pending := [.op (encode (.extract .report))] }) =
      some .found ∧ (capturing .report []).capstat.active = true := by decide

theorem witness_DecodersWriteOnlyTheirOwnResults :
    (after (exec (.extract .report) (loaded vectorFrame))).isSome = true ∧
    seen (fun t => (t.repstat.res, t.operr)) (exec .decodeReport (extracted .report 14 vectorFrame)) =
      some (.corrupt, .ok) ∧
    seen (fun t => t.cmdstat.res) (exec .cmdParse (extracted .report 15 vectorFrame)) = some .noFrame ∧
    (after (exec (.decodeStatus .default) start)).isSome = true := by decide

theorem witness_CaptureEndsOnlyInTheListedWays :
    seen (fun t => t.capstat.active) (step { capturing .report [0xF8, 0xF7, 0xF6] with pending := [.rx 0xF5] }) =
      some false ∧
    seen (fun t => t.capstat.active) (step { capturing .report [] with pending := [.timeout] }) = some false ∧
    seen (fun t => t.capstat.active) (step { capturing .report [] with pending := [.op (encode .capClear)] }) =
      some false ∧
    seen (fun t => t.capstat.active) (step { capturing .report [] with pending := [.reset] }) = some false := by decide

theorem witness_OneCommandExchangeAtATime :
    seen (fun t => (t.operr, t.capstat.active)) (exec (.send 0x00FE []) start) = some (.ok, true) ∧
    (capturing .command []).capstat.active = true ∧
    (after (step { start with obuf := [1], pending := [.tx] })).isSome = true := by decide

theorem witness_CaptureStopsAtTheFirstTail :
    (capturing .report []).capstat = ⟨true, .report, .none, false⟩ ∧ (capturing .report []).ilen = 0 ∧
    [7] ++ tailOf .report = [7] ++ tailOf .report ∧ find ([7] ++ tailOf .report) (tailOf .report) 0 = some 1 ∧
    find (List.replicate 23 0) (tailOf .report) 0 = none ∧ (List.replicate 23 0#8).length ≤ start.params.ibufSize := by
  decide

theorem witness_ReportFrameDecodesToItsFields :
    [0x0D, 0x00, 0x02, 0xAA].length (α := Byte) = 4 ∧ start.capstat.active = false ∧ 23 ≤ start.params.ibufSize ∧
    find vectorFrame (tailOf .report) 4 = some 19 := by decide

theorem witness_EncodedCommandRoundTrips :
    start.params.Valid ∧ start.capstat.active = false ∧ [1, 0].length (α := Byte) ≤ start.params.vmax ∧
    12 + [1, 0].length (α := Byte) ≤ start.params.ibufSize ∧
    find (cmdframe 0x00FF [1, 0]) (tailOf .command) 4 = some 10 ∧
    (State.resetWith ⟨23, 5, 4⟩).params.Valid ∧
    find (cmdframe 0x0010 [4, 3, 2, 1, 0x77]) (tailOf .command) 4 = some 8 := by decide

theorem witness_PseudoOperationsSendTheirFrames :
    start.obuf = [] ∧ start.capstat.active = false ∧ 2 ≤ start.params.vmax := by decide

end Sys2Proof.Tests
end

/-! PROOFS for the family of 00_scope.md: little-endian fields (R13), the step that runs the decoded operation (R5),
and the agents' side of a step (logs 1, 3 and 9). -/

namespace Sys2Proof.Proofs.Scope

open Sys2Proof.Machine

/-! ### Little-endian 16-bit fields (00_scope.md R13) -/

/-- The assembled word is the high byte beside the low byte. -/
theorem le16_eq_append (b0 b1 : Byte) : le16 b0 b1 = b1 ++ b0 := by
  rw [le16, BitVec.or_comm, BitVec.append_def, BitVec.shiftLeftZeroExtend_eq, BitVec.setWidth'_eq]

theorem le16_toNat (b0 b1 : Byte) : (le16 b0 b1).toNat = b0.toNat + 256 * b1.toNat := by
  rw [le16_eq_append, BitVec.toNat_append, ← Nat.shiftLeft_add_eq_or_of_lt b0.isLt, Nat.shiftLeft_eq]
  omega

theorem lo8_eq_ofNat (v : Word) : lo8 v = BitVec.ofNat 8 (v.toNat % 256) := by
  simp [lo8, BitVec.toNat_eq]

theorem hi8_eq_ofNat (v : Word) : hi8 v = BitVec.ofNat 8 (v.toNat / 256) := by
  simp [hi8, BitVec.toNat_eq, Nat.shiftRight_eq_div_pow]

/-- Splitting a word and assembling its bytes gives the word back. -/
theorem le16_lo8_hi8 (v : Word) : le16 (lo8 v) (hi8 v) = v := by
  have hv := v.isLt
  rw [BitVec.toNat_eq, le16_toNat, lo8_eq_ofNat, hi8_eq_ofNat, BitVec.toNat_ofNat, BitVec.toNat_ofNat]
  omega

/-- Settles O24, from the value of `le16` as a number and the two halves of a word. -/
theorem littleEndianAssembly : Obligations.LittleEndianAssembly :=
  ⟨le16_toNat, fun v => ⟨by rw [le16bytes, lo8_eq_ofNat, hi8_eq_ofNat], le16_lo8_hi8 v⟩⟩

/-! ### The decoder reads back what the encoder writes (30_encoding.md R72, R73) -/

theorem opWord_accWr (idx : BitVec 4) (valid : Bool) (code : Word) :
    opWord (.accWr idx valid code) = 0xA#4 ++ 0#7 ++ BitVec.ofBool valid ++ idx := rfl

/-- The fields of an ACC_WR op word: OPC, the reserved bits, IDX and V (30_encoding.md R72, format C). -/
theorem opWord_accWr_fields (idx : BitVec 4) (valid : Bool) (code : Word) :
    opcField (opWord (.accWr idx valid code)) = 0xA#4 ∧
    (opWord (.accWr idx valid code)).extractLsb' 5 7 = 0#7 ∧
    (opWord (.accWr idx valid code)).extractLsb' 0 4 = idx ∧
    (opWord (.accWr idx valid code))[4] = valid := by
  rw [opWord_accWr]
  revert idx valid
  decide

/-- Only format P, A and C op words hold an operand; every other op word is a literal, which the decoder reads by
evaluation. -/
theorem decode_encode (i : Instr) : decode (encode i) = .ok i := by
  cases i with
  | capArm p => cases p <;> rfl
  | extract p => cases p <;> rfl
  | decodeStatus a => cases a <;> rfl
  | accWr idx valid code =>
    obtain ⟨hopc, hreserved, hidx, hvalid⟩ := opWord_accWr_fields idx valid code
    simp [decode, encode, decodeC, dwordOperand, hopc, hreserved, hidx, hvalid]
  | ibufLoad | encode | send =>
    simp [decode, decodeN, encode, opWord, opcField, dwordOperand, dbytesOperand]
  | nop | capClear | decodeReport | cmdParse | txFlush => rfl

/-! ### The step runs the decoded operation (00_scope.md R5; 30_encoding.md R70) -/

theorem runRequest_of_decode {q : OpRequest} {i : Instr} (h : decode q = .ok i) (s : State) :
    runRequest q s = exec i s := by
  simp [runRequest, h]

theorem step_of_decode {s : State} {q : OpRequest} {rest : List Event} {i : Instr}
    (hp : s.pending = .op q :: rest) (hd : decode q = .ok i) : step s = exec i { s with pending := rest } :=
  (step_cons hp).trans (runRequest_of_decode hd _)

/-- Settles O6: the step takes the head of the schedule, and the decoder reads the operation from its triple. -/
theorem stepRunsTheDecodedOperation : Obligations.StepRunsTheDecodedOperation :=
  ⟨fun _ _ _ _ hp hd => step_of_decode hp hd, fun _ i _ hp => step_of_decode hp (decode_encode i),
    fun _ hp => step_nil hp⟩

/-! ### The agents' side of a step (logs 1, 3 and 9) -/

/-- The model's own fields, the agents' side, are the same in both states. -/
structure SameAgentsSide (s t : State) : Prop where
  pending : t.pending = s.pending
  txStream : t.txStream = s.txStream
  hostReads : t.hostReads = s.hostReads

/-- No operation touches the agents' side: in each case of its meaning only fields of the block change. -/
theorem exec_sameAgentsSide {i : Instr} {s t : State} (h : exec i s = .next t) : SameAgentsSide s t := by
  cases i with
  | nop => cases execNop_next h; exact ⟨rfl, rfl, rfl⟩
  | capClear => cases execCapClear_next h; exact ⟨rfl, rfl, rfl⟩
  | capArm p => obtain ⟨-, rfl⟩ | ⟨-, rfl⟩ := execCapArm_next h <;> exact ⟨rfl, rfl, rfl⟩
  | ibufLoad bytes =>
    obtain ⟨-, rfl⟩ | ⟨-, -, rfl⟩ | ⟨-, -, rfl⟩ := execIbufLoad_next h <;> exact ⟨rfl, rfl, rfl⟩
  | extract p => obtain ⟨-, rfl⟩ | ⟨_, -, -, rfl⟩ := execExtract_next h <;> exact ⟨rfl, rfl, rfl⟩
  | decodeReport =>
    obtain ⟨-, rfl⟩ | ⟨-, _, -, rfl⟩ | ⟨_, -, -, -, -, rfl⟩ := execDecodeReport_next h <;> exact ⟨rfl, rfl, rfl⟩
  | cmdParse =>
    obtain ⟨-, rfl⟩ | ⟨-, _, -, rfl⟩ | ⟨_, -, -, -, -, rfl⟩ := execCmdParse_next h <;> exact ⟨rfl, rfl, rfl⟩
  | encode w v =>
    obtain ⟨-, rfl⟩ | ⟨-, -, -, rfl⟩ | ⟨-, -, -, rfl⟩ := execEncode_next h <;> exact ⟨rfl, rfl, rfl⟩
  | send w v =>
    obtain ⟨-, rfl⟩ | ⟨-, -, -, rfl⟩ | ⟨-, -, -, rfl⟩ := execSend_next h <;> exact ⟨rfl, rfl, rfl⟩
  | decodeStatus a =>
    obtain ⟨-, rfl⟩ | ⟨-, _, -, -, rfl⟩ | ⟨_, -, -, -, -, -, rfl⟩ := execDecodeStatus_next h <;> exact ⟨rfl, rfl, rfl⟩
  | accWr idx valid code => obtain ⟨-, rfl⟩ | ⟨-, rfl⟩ := execAccWr_next h <;> exact ⟨rfl, rfl, rfl⟩
  | txFlush => cases execTxFlush_next h; exact ⟨rfl, rfl, rfl⟩

theorem runRequest_sameAgentsSide {q : OpRequest} {s t : State} (h : runRequest q s = .next t) :
    SameAgentsSide s t := by
  obtain ⟨-, rfl⟩ | ⟨_, -, he⟩ := runRequest_next h
  · exact ⟨rfl, rfl, rfl⟩
  · exact exec_sameAgentsSide he

theorem evRx_sameAgentsSide {b : Byte} {s t : State} (h : evRx b s = .next t) : SameAgentsSide s t := by
  obtain ⟨-, rfl⟩ | ⟨_, _, -, -, rfl, -, ⟨-, rfl⟩ | ⟨-, -, rfl⟩ | ⟨-, -, rfl⟩⟩ := evRx_next h <;>
    exact ⟨rfl, rfl, rfl⟩

theorem evTimeout_sameAgentsSide {s t : State} (h : evTimeout s = .next t) : SameAgentsSide s t := by
  obtain ⟨-, rfl⟩ | ⟨-, rfl⟩ := evTimeout_next h <;> exact ⟨rfl, rfl, rfl⟩

theorem evReset_sameAgentsSide {s t : State} (h : evReset s = .next t) : SameAgentsSide s t := by
  cases evReset_next h; exact ⟨rfl, rfl, rfl⟩

/-- What one agent's step does to the agents' side: nothing at all, or `tx` takes a byte from a non-empty OBUF, or
the host records what a read port answered. -/
theorem runEvent_agentsSide {e : Event} {s t : State} (h : runEvent e s = .next t) :
    SameAgentsSide s t ∨
    (e = .tx ∧ ∃ b rest, s.obuf = b :: rest ∧ t = { s with obuf := rest, txStream := s.txStream ++ [b] }) ∨
    (∃ n, e = .rdreg n ∧ t = { s with hostReads := s.hostReads ++ [.reg n (regValue s n)] }) ∨
    (∃ i b, e = .rdbuf i ∧ t = { s with hostReads := s.hostReads ++ [.buf i b] }) := by
  cases e with
  | op q => exact .inl (runRequest_sameAgentsSide h)
  | rdreg n => exact .inr (.inr (.inl ⟨n, rfl, evRdreg_next h⟩))
  | rdbuf i =>
    obtain ⟨b, -, ht⟩ := evRdbuf_next h
    exact .inr (.inr (.inr ⟨i, b, rfl, ht⟩))
  | rx b => exact .inl (evRx_sameAgentsSide h)
  | tx =>
    obtain ⟨-, rfl⟩ | htx := evTx_next h
    · exact .inl ⟨rfl, rfl, rfl⟩
    · exact .inr (.inl ⟨rfl, htx⟩)
  | timeout => exact .inl (evTimeout_sameAgentsSide h)
  | reset => exact .inl (evReset_sameAgentsSide h)

/-- Taking an entry off the schedule changes no register. -/
theorem regValue_pending (s : State) (rest : List Event) (n : Word) :
    regValue { s with pending := rest } n = regValue s n := rfl

/-- Settles O39, by the four things one agent's step can do to the agents' side. -/
theorem agentsSideMovesForward : Obligations.AgentsSideMovesForward := by
  intro s t e rest hp h
  rw [step_cons hp] at h
  obtain ⟨hpend, htx, hreads⟩ | ⟨rfl, b, obuf, hobuf, rfl⟩ | ⟨n, rfl, rfl⟩ | ⟨i, b, rfl, rfl⟩ :=
    runEvent_agentsSide h
  · exact ⟨hpend, .inl htx, .inl hreads⟩
  · exact ⟨rfl, .inr ⟨rfl, b, hobuf, rfl⟩, .inl rfl⟩
  · exact ⟨rfl, .inl rfl, .inr (.inl ⟨n, rfl, by rw [regValue_pending]⟩)⟩
  · exact ⟨rfl, .inl rfl, .inr (.inr ⟨i, b, rfl, rfl⟩)⟩

end Sys2Proof.Proofs.Scope

/-! PROOFS for the family of 10_state.md: the invariant of the reachable states (R40), the bytes that are never
visible (R24, R41), and the register map: its fields, its read-back and who writes it (R22–R38). -/

namespace Sys2Proof.Proofs.BlockState

open Sys2Proof.Machine

/-! ### What an operation changes besides OPERR (60_exceptions.md R233) -/

/-- The buffer emptied and any capture ended (40_frame_extractor.md R102). -/
def emptied (s : State) : State :=
  invalidateViews
    { s with ilen := 0, capstat := { s.capstat with active := false, ended := .none, rxlost := false } }

/-- The buffer's contents replaced (40_frame_extractor.md R104). -/
def loadedWith (bytes : List Byte) (s : State) : State :=
  invalidateViews
    { s with
      ibuf := s.ibuf.writeMany 0 bytes
      ilen := bytes.length
      capstat := { s.capstat with ended := .loaded, rxlost := false } }

/-- The frame scan of these bytes recorded as the extraction (40_frame_extractor.md R108). -/
def extractedFrom (p : Pair) (bytes : List Byte) (s : State) : State :=
  { s with
    extstat := { state := (scanFrame p bytes).state, pair := p, leadTail := (scanFrame p bytes).leadTail }
    extHpos := (scanFrame p bytes).hpos
    extStart := (scanFrame p bytes).start
    extLen := (scanFrame p bytes).len }

/-- One received byte appended to the buffer (40_frame_extractor.md R105). -/
def received (b : Byte) (s : State) : State :=
  invalidateViews { s with ibuf := s.ibuf.write s.ilen b, ilen := s.ilen + 1 }

/-- The state an operation leaves when OPERR is set aside, with what its meaning checked on the way: the state it
met, for a NOP and for every rejected operation, or the operation's own effect. -/
inductive OpEffect (s : State) : Instr → State → Prop
  | unchanged (i : Instr) : OpEffect s i s
  | capClear : OpEffect s .capClear (emptied s)
  | capArm (p : Pair) : OpEffect s (.capArm p) (armCapture p s)
  | ibufLoad (bytes : List Byte) (hinactive : s.capstat.active = false) (hfits : bytes.length ≤ s.params.ibufSize) :
      OpEffect s (.ibufLoad bytes) (loadedWith bytes s)
  | extract (p : Pair) (bytes : List Byte) (hinactive : s.capstat.active = false) (hbytes : BufferHolds s bytes) :
      OpEffect s (.extract p) (extractedFrom p bytes s)
  | reportCorrupt (why : CReason) (hwhy : why ≠ .none) : OpEffect s .decodeReport (reportCorrupt why s)
  | reportValid (P : List Byte) : OpEffect s .decodeReport (reportValid P s)
  | parseFailed (r : CmdRes) (hr : r = .noFrame ∨ r = .short) (hview : s.extstat.state ≠ .none) :
      OpEffect s .cmdParse (parseFailed r s)
  | parseBody (B : List Byte) (hfound : s.extstat.state = .found) (hlong : 4 ≤ s.extLen) :
      OpEffect s .cmdParse (parseBody B s)
  | encode (w : Word) (v : List Byte) (hempty : s.obuf = []) (hfits : v.length ≤ s.params.vmax) :
      OpEffect s (.encode w v) (obufPush (cmdframe w v) s)
  | send (w : Word) (v : List Byte) (hempty : s.obuf = []) (hfits : v.length ≤ s.params.vmax) :
      OpEffect s (.send w v) (armCapture .command (obufPush (cmdframe w v) s))
  | decodeStatus (a : AccSel) (r : StRes) (code : Word) (hcode : r ≠ .success → r ≠ .failure → code = 0#16) :
      OpEffect s (.decodeStatus a) (statusResult a r code s)
  | accWr (idx : BitVec 4) (valid : Bool) (code : Word) :
      OpEffect s (.accWr idx valid code) { s with acc := s.acc.set idx.toNat { valid := valid, code := code } }
  | txFlush : OpEffect s .txFlush { s with obuf := [] }

/-- Each operation leaves its effect, or the state it met, and an OPERR code. -/
theorem exec_effect {i : Instr} {s t : State} (h : exec i s = .next t) :
    ∃ c u, OpEffect s i u ∧ t = { u with operr := c } := by
  cases i with
  | nop => exact ⟨.ok, s, .unchanged _, execNop_next h⟩
  | capClear => exact ⟨.ok, _, .capClear, execCapClear_next h⟩
  | capArm p =>
    obtain ⟨-, ht⟩ | ⟨-, ht⟩ := execCapArm_next h
    · exact ⟨.busy, s, .unchanged _, ht⟩
    · exact ⟨.ok, _, .capArm p, ht⟩
  | ibufLoad bytes =>
    obtain ⟨-, ht⟩ | ⟨-, -, ht⟩ | ⟨ha, hl, ht⟩ := execIbufLoad_next h
    · exact ⟨.busy, s, .unchanged _, ht⟩
    · exact ⟨.tooLong, s, .unchanged _, ht⟩
    · exact ⟨.ok, _, .ibufLoad bytes ha hl, ht⟩
  | extract p =>
    obtain ⟨-, ht⟩ | ⟨bytes, ha, hb, ht⟩ := execExtract_next h
    · exact ⟨.notReady, s, .unchanged _, ht⟩
    · exact ⟨.ok, _, .extract p bytes ha hb, ht⟩
  | decodeReport =>
    obtain ⟨-, ht⟩ | ⟨-, why, hwhy, ht⟩ | ⟨P, -, -, -, -, ht⟩ := execDecodeReport_next h
    · exact ⟨.notReady, s, .unchanged _, ht⟩
    · exact ⟨.ok, _, .reportCorrupt why hwhy, ht⟩
    · exact ⟨.ok, _, .reportValid P, ht⟩
  | cmdParse =>
    obtain ⟨-, ht⟩ | ⟨hv, r, hr, ht⟩ | ⟨B, hf, -, hl, -, ht⟩ := execCmdParse_next h
    · exact ⟨.notReady, s, .unchanged _, ht⟩
    · exact ⟨.ok, _, .parseFailed r hr hv, ht⟩
    · exact ⟨.ok, _, .parseBody B hf hl, ht⟩
  | encode w v =>
    obtain ⟨-, ht⟩ | ⟨-, -, -, ht⟩ | ⟨he, -, hl, ht⟩ := execEncode_next h
    · exact ⟨.busy, s, .unchanged _, ht⟩
    · exact ⟨.tooLong, s, .unchanged _, ht⟩
    · exact ⟨.ok, _, .encode w v he hl, ht⟩
  | send w v =>
    obtain ⟨-, ht⟩ | ⟨-, -, -, ht⟩ | ⟨he, -, hl, ht⟩ := execSend_next h
    · exact ⟨.busy, s, .unchanged _, ht⟩
    · exact ⟨.tooLong, s, .unchanged _, ht⟩
    · exact ⟨.ok, _, .send w v he hl, ht⟩
  | decodeStatus a =>
    obtain ⟨-, ht⟩ | ⟨-, r, -, -, ht⟩ | ⟨R, -, -, -, -, -, ht⟩ := execDecodeStatus_next h
    · exact ⟨.notReady, s, .unchanged _, ht⟩
    · exact ⟨.ok, _, .decodeStatus a r 0#16 fun _ _ => rfl, ht⟩
    · refine ⟨.ok, _, .decodeStatus a _ _ fun hs hf => ?_, ht⟩
      split at hs
      · exact absurd rfl hs
      · next hc => simp [hc] at hf
  | accWr idx valid code =>
    obtain ⟨-, ht⟩ | ⟨-, ht⟩ := execAccWr_next h
    · exact ⟨.badIndex, s, .unchanged _, ht⟩
    · exact ⟨.ok, _, .accWr idx valid code, ht⟩
  | txFlush => exact ⟨.ok, _, .txFlush, execTxFlush_next h⟩

/-- The state one agent's step leaves, with what it checked on the way. -/
inductive AgentEffect (s : State) : Event → State → Prop
  | illegal (q : OpRequest) : AgentEffect s (.op q) { s with operr := .illegal }
  | op {q : OpRequest} {i : Instr} {u : State} (hdecode : decode q = .ok i) (heffect : OpEffect s i u) (c : OpErr) :
      AgentEffect s (.op q) { u with operr := c }
  | rdreg (n : Word) (r : ReadResult) : AgentEffect s (.rdreg n) { s with hostReads := s.hostReads ++ [r] }
  | rdbuf (i : Word) (r : ReadResult) : AgentEffect s (.rdbuf i) { s with hostReads := s.hostReads ++ [r] }
  | rxLost (b : Byte) (hinactive : s.capstat.active = false) :
      AgentEffect s (.rx b) { s with capstat := { s.capstat with rxlost := true } }
  | rxAppended (b : Byte) (bytes : List Byte) (hactive : s.capstat.active = true)
      (hroom : s.ilen + 1 < s.params.ibufSize) (hbytes : BufferHolds (received b s) bytes)
      (hnot : endsWith bytes (tailOf s.capstat.pair) = false) : AgentEffect s (.rx b) (received b s)
  | rxEnded (b : Byte) (bytes : List Byte) (why : CapEnd) (hwhy : why ≠ .none)
      (hroom : s.ilen + 1 ≤ s.params.ibufSize) (hbytes : BufferHolds (received b s) bytes) :
      AgentEffect s (.rx b) (endCapture why (received b s))
  | txIdle (hobuf : s.obuf = []) : AgentEffect s .tx s
  | tx (b : Byte) (rest : List Byte) (hobuf : s.obuf = b :: rest) :
      AgentEffect s .tx { s with obuf := rest, txStream := s.txStream ++ [b] }
  | timeoutIdle (hinactive : s.capstat.active = false) : AgentEffect s .timeout s
  | timeout (hactive : s.capstat.active = true) : AgentEffect s .timeout (endCapture .timeout s)
  | reset : AgentEffect s .reset { State.resetWith s.params with
      pending := s.pending, txStream := s.txStream, hostReads := s.hostReads }

theorem evRx_effect {b : Byte} {s t : State} (h : evRx b s = .next t) : AgentEffect s (.rx b) t := by
  obtain ⟨ha, rfl⟩ | ⟨bytes, u, ha, hroom, rfl, hbytes, hend⟩ := evRx_next h
  · exact .rxLost b ha
  · obtain ⟨-, rfl⟩ | ⟨-, -, rfl⟩ | ⟨hnot, hsize, rfl⟩ := hend
    · exact .rxEnded b bytes .tail (by decide) hroom hbytes
    · exact .rxEnded b bytes .full (by decide) hroom hbytes
    · exact .rxAppended b bytes ha (by omega) hbytes hnot

theorem runRequest_effect {q : OpRequest} {s t : State} (h : runRequest q s = .next t) : AgentEffect s (.op q) t := by
  obtain ⟨-, rfl⟩ | ⟨i, hi, he⟩ := runRequest_next h
  · exact .illegal q
  · obtain ⟨c, u, hu, rfl⟩ := exec_effect he
    exact .op hi hu c

/-- Each agent's step leaves its effect. -/
theorem runEvent_effect {e : Event} {s t : State} (h : runEvent e s = .next t) : AgentEffect s e t := by
  cases e with
  | op q => exact runRequest_effect h
  | rdreg n => cases evRdreg_next h; exact .rdreg n _
  | rdbuf i => obtain ⟨b, -, rfl⟩ := evRdbuf_next h; exact .rdbuf i _
  | rx b => exact evRx_effect h
  | tx =>
    obtain ⟨hobuf, rfl⟩ | ⟨b, rest, hobuf, rfl⟩ := evTx_next h
    · exact .txIdle hobuf
    · exact .tx b rest hobuf
  | timeout =>
    obtain ⟨ha, rfl⟩ | ⟨ha, rfl⟩ := evTimeout_next h
    · exact .timeout ha
    · exact .timeoutIdle ha
  | reset => cases evReset_next h; exact .reset

/-- A step with an agent's step to come leaves that step's effect. -/
theorem step_effect {s t : State} {e : Event} {rest : List Event} (hp : s.pending = e :: rest)
    (h : step s = .next t) : AgentEffect { s with pending := rest } e t :=
  runEvent_effect ((step_cons hp).symm.trans h)

/-- What every agent's step keeps, every step keeps, if the schedule does not matter to it. -/
theorem step_keeps {P : State → Prop} (hpending : ∀ s rest, P s → P { s with pending := rest })
    (hevent : ∀ e s t, P s → AgentEffect s e t → P t) {s t : State} (hs : P s) (h : step s = .next t) : P t := by
  obtain ⟨-, rfl⟩ | ⟨e, rest, -, he⟩ := step_next h
  · exact hs
  · exact hevent e _ _ (hpending s rest hs) (runEvent_effect he)

/-! ### The invariant (10_state.md R40) -/

theorem viewInv_of_none {s : State} (hext : s.extstat.state = .none) (hcmd : s.cmdstat.res = .none) : ViewInv s := by
  simp [ViewInv, hext, hcmd]

theorem captureInv_of_inactive {s : State} (ha : s.capstat.active = false)
    (hend : s.capstat.ended = .none → s.ilen = 0) : CaptureInv s :=
  ⟨fun h => by simp [ha] at h, fun _ => hend⟩

theorem inactive_of_view {s : State} (h : CaptureInv s) (hv : s.extstat.state ≠ .none) :
    s.capstat.active = false :=
  Bool.eq_false_iff.mpr fun ha => hv (h.1 ha).2.1

/-- The invariant in a state whose buffer is empty and whose views are invalid: what is left to show is about the
other registers. -/
theorem inv_of_empty {s : State} (hparams : s.params.Valid) (hwf : s.ibuf.wf) (hlen : s.ilen = 0)
    (hext : s.extstat.state = .none) (hcmd : s.cmdstat.res = .none) (hend : s.capstat.ended = .none)
    (hqueue : QueueInv s) (hwidth : WidthInv s) : Inv s := by
  refine ⟨hparams, ⟨hwf, by omega, fun i hi => by omega⟩, ⟨fun _ => ⟨hend, hext, hcmd, ?_, fun h => by omega⟩,
    fun _ _ => hlen⟩, viewInv_of_none hext hcmd, hqueue, hwidth⟩
  have := hparams.1.1
  omega

theorem inv_resetWith {p : Params} (hp : p.Valid) : Inv (State.resetWith p) :=
  inv_of_empty hp List.Pairwise.nil rfl rfl rfl rfl
    ⟨Nat.zero_le _, List.length_replicate⟩ (by simp [WidthInv, State.resetWith])

theorem resultInv_resetWith (p : Params) : ResultInv (State.resetWith p) :=
  ⟨rfl, iff_of_true rfl (by simp [State.resetWith]), fun _ _ => rfl⟩

/-- Settles O40, from the invariant of an empty buffer. -/
theorem resetMeetsTheInvariant : Obligations.ResetMeetsTheInvariant :=
  ⟨fun p hp => ⟨inv_resetWith hp, resultInv_resetWith p⟩, inv_resetWith (by decide)⟩

/-- Arming a capture empties the buffer and invalidates the views. -/
theorem inv_armCapture {s : State} (p : Pair) (h : Inv s) : Inv (armCapture p s) := by
  obtain ⟨hparams, ⟨hwf, -, -⟩, -, -, hqueue, hwidth⟩ := h
  exact inv_of_empty hparams hwf rfl rfl rfl rfl hqueue hwidth

/-- A command frame fits an empty output queue (00_scope.md R8). -/
theorem inv_obufPush_cmdframe {s : State} {w : Word} {v : List Byte} (h : Inv s) (hempty : s.obuf = [])
    (hfits : v.length ≤ s.params.vmax) : Inv (obufPush (cmdframe w v) s) := by
  obtain ⟨hparams, hbuf, hcap, hview, ⟨-, hacc⟩, hwidth⟩ := h
  refine ⟨hparams, hbuf, hcap, hview, ⟨?_, hacc⟩, hwidth⟩
  simpa [hempty] using hfits

/-- A sequence written from index 0 on is listed throughout. -/
theorem inv_loadedWith {s : State} {bytes : List Byte} (h : Inv s) (hinactive : s.capstat.active = false)
    (hfits : bytes.length ≤ s.params.ibufSize) :
    Inv (loadedWith bytes s) := by
  obtain ⟨hparams, ⟨hwf, -, -⟩, -, -, hqueue, hwidth⟩ := h
  exact ⟨hparams, ⟨Memory.writeMany_wf hwf 0 bytes, hfits,
      BufferHolds.listed (s := loadedWith bytes s) (Memory.readMany?_writeMany_self s.ibuf 0 bytes)⟩,
    captureInv_of_inactive hinactive (by simp [loadedWith]), viewInv_of_none rfl rfl, hqueue, hwidth⟩

/-- The frame scan's positions lie within the buffer it scans. -/
theorem inv_extractedFrom {s : State} {p : Pair} {bytes : List Byte} (h : Inv s) (hinactive : s.capstat.active = false)
    (hbytes : BufferHolds s bytes) :
    Inv (extractedFrom p bytes s) := by
  obtain ⟨hparams, hbuf, hcap, ⟨-, hcmd⟩, hqueue, -, -, -, hvstart, hvlen⟩ := h
  have hlen := hbytes.length
  obtain ⟨hhpos, hstart, hbody⟩ := scanFrame_positions_le p bytes
  have hsize := hparams.1.2
  have hilen := hbuf.2.1
  have hfound : (extractedFrom p bytes s).extstat.state = .found →
      (scanFrame p bytes).start = (scanFrame p bytes).hpos + 4 ∧
      (scanFrame p bytes).start + (scanFrame p bytes).len + 4 ≤ s.ilen := fun hf =>
    hlen ▸ scanFrame_found_bounds hf
  refine ⟨hparams, hbuf, captureInv_of_inactive hinactive (hcap.2 hinactive), ⟨hfound, hcmd⟩, hqueue,
    ?_, ?_, ?_, hvstart, hvlen⟩ <;> dsimp only [extractedFrom] <;> omega

theorem inv_parseFailed {s : State} {r : CmdRes} (h : Inv s) (hr : r = .noFrame ∨ r = .short)
    (hview : s.extstat.state ≠ .none) : Inv (parseFailed r s) := by
  obtain ⟨hparams, hbuf, hcap, ⟨hext, -⟩, hqueue, hwidth⟩ := h
  have ha := inactive_of_view hcap hview
  refine ⟨hparams, hbuf, captureInv_of_inactive ha (hcap.2 ha), ⟨hext, fun hok => ?_⟩, hqueue, hwidth⟩
  obtain rfl | rfl := hr <;> simp [parseFailed] at hok

/-- The value of a command body lies within the body. -/
theorem inv_parseBody {s : State} {B : List Byte} (h : Inv s) (hfound : s.extstat.state = .found)
    (hlong : 4 ≤ s.extLen) : Inv (parseBody B s) := by
  obtain ⟨hparams, hbuf, hcap, ⟨hext, -⟩, hqueue, hhpos, hstart, hlen, -, -⟩ := h
  have ha := inactive_of_view hcap (by simp [hfound])
  have hend := (hext hfound).2
  have hsize := hparams.1.2
  have hilen := hbuf.2.1
  exact ⟨hparams, hbuf, captureInv_of_inactive ha (hcap.2 ha),
    ⟨hext, fun _ => by dsimp only [parseBody]; omega⟩, hqueue,
    hhpos, hstart, hlen, by dsimp only [parseBody]; omega, by dsimp only [parseBody]; omega⟩

theorem inv_opEffect {i : Instr} {s u : State} (h : Inv s) (he : OpEffect s i u) : Inv u := by
  cases he with
  | unchanged => exact h
  | capClear =>
    obtain ⟨hparams, ⟨hwf, -, -⟩, -, -, hqueue, hwidth⟩ := h
    exact inv_of_empty hparams hwf rfl rfl rfl rfl hqueue hwidth
  | capArm p => exact inv_armCapture p h
  | ibufLoad bytes hinactive hfits => exact inv_loadedWith h hinactive hfits
  | extract p bytes hinactive hbytes => exact inv_extractedFrom h hinactive hbytes
  | reportCorrupt | reportValid | decodeStatus => exact h
  | parseFailed r hr hview => exact inv_parseFailed h hr hview
  | parseBody B hfound hlong => exact inv_parseBody h hfound hlong
  | encode w v hempty hfits => exact inv_obufPush_cmdframe h hempty hfits
  | send w v hempty hfits => exact inv_armCapture .command (inv_obufPush_cmdframe h hempty hfits)
  | accWr idx valid code =>
    obtain ⟨hparams, hbuf, hcap, hview, ⟨hobuf, hacc⟩, hwidth⟩ := h
    exact ⟨hparams, hbuf, hcap, hview, ⟨hobuf, List.length_set.trans hacc⟩, hwidth⟩
  | txFlush =>
    obtain ⟨hparams, hbuf, hcap, hview, ⟨-, hacc⟩, hwidth⟩ := h
    exact ⟨hparams, hbuf, hcap, hview, ⟨Nat.zero_le _, hacc⟩, hwidth⟩

/-- A capture that ends keeps its bytes and the views it invalidated. -/
theorem inv_endCapture {s : State} {why : CapEnd} (hwhy : why ≠ .none) (hparams : s.params.Valid)
    (hbuf : BufferInv s) (hview : ViewInv s) (hqueue : QueueInv s) (hwidth : WidthInv s) :
    Inv (endCapture why s) :=
  ⟨hparams, hbuf, captureInv_of_inactive rfl fun h => absurd h hwhy, hview, hqueue, hwidth⟩

/-- A byte appended to a sequence in which the pattern does not stand makes it stand at most at the end. -/
theorem find_concat_eq_none {bytes p : List Byte} {b : Byte} (hnone : ∀ i, ¬ StandsAt bytes p i)
    (hend : endsWith (bytes ++ [b]) p = false) : find (bytes ++ [b]) p 0 = none := by
  rw [find_eq_none_iff]
  intro i _ hi
  obtain hs | he := standsAt_concat hi
  · exact hnone i hs
  · simp [hend] at he

/-- A capture below four bytes holds no tail, and a longer one by the invariant. -/
theorem no_tail_of_active {s : State} {bytes : List Byte} (h : CaptureInv s) (ha : s.capstat.active = true)
    (hb : BufferHolds s bytes) (i : Nat) : ¬ StandsAt bytes (tailOf s.capstat.pair) i := by
  intro hi
  have hlen := hi.le_length
  rw [tailOf_length, hb.length] at hlen
  obtain ⟨-, -, -, -, htail⟩ := h.1 ha
  have hnone := htail (by omega)
  rw [hb.bufferBytes] at hnone
  exact find_eq_none_iff.mp hnone i (Nat.zero_le i) hi

theorem bufferInv_received {s : State} {b : Byte} {bytes : List Byte} (hwf : s.ibuf.wf)
    (hroom : s.ilen + 1 ≤ s.params.ibufSize) (hbytes : BufferHolds (received b s) bytes) :
    BufferInv (received b s) :=
  ⟨Memory.write_wf hwf s.ilen b, hroom, hbytes.listed⟩

/-- A byte that completes no tail and leaves room for another. -/
theorem inv_received {s : State} {b : Byte} {bytes : List Byte} (h : Inv s) (hactive : s.capstat.active = true)
    (hroom : s.ilen + 1 < s.params.ibufSize) (hbytes : BufferHolds (received b s) bytes)
    (hnot : endsWith bytes (tailOf s.capstat.pair) = false) : Inv (received b s) := by
  obtain ⟨hparams, ⟨hwf, -, hlisted⟩, hcap, -, hqueue, hwidth⟩ := h
  have hold := bufferHolds_of_listed hlisted
  have hnew : bytes = bufferBytes s ++ [b] :=
    Option.some.inj (hbytes.symm.trans (Memory.readMany?_write_end b hold))
  have htail : find (bufferBytes (received b s)) (tailOf s.capstat.pair) 0 = none := by
    rw [hbytes.bufferBytes]
    subst hnew
    exact find_concat_eq_none (no_tail_of_active hcap hactive hold) hnot
  exact ⟨hparams, bufferInv_received hwf (Nat.le_of_lt hroom) hbytes,
    ⟨fun ha => ⟨(hcap.1 ha).1, rfl, rfl, hroom, fun _ => htail⟩,
      fun ha => absurd (hactive.symm.trans ha) (by decide)⟩,
    viewInv_of_none rfl rfl, hqueue, hwidth⟩

theorem inv_agentEffect (e : Event) (s t : State) (h : Inv s) (he : AgentEffect s e t) : Inv t := by
  cases he with
  | illegal | rdreg | rdbuf | txIdle | timeoutIdle => exact h
  | op hdecode heffect c => exact (inv_opEffect h heffect :)
  | rxLost b hinactive =>
    obtain ⟨hparams, hbuf, hcap, hview, hqueue, hwidth⟩ := h
    exact ⟨hparams, hbuf, captureInv_of_inactive hinactive (hcap.2 hinactive), hview, hqueue, hwidth⟩
  | rxAppended b bytes hactive hroom hbytes hnot => exact inv_received h hactive hroom hbytes hnot
  | rxEnded b bytes why hwhy hroom hbytes =>
    obtain ⟨hparams, ⟨hwf, -, -⟩, -, -, hqueue, hwidth⟩ := h
    exact inv_endCapture hwhy hparams (bufferInv_received hwf hroom hbytes) (viewInv_of_none rfl rfl) hqueue hwidth
  | tx b rest hobuf =>
    obtain ⟨hparams, hbuf, hcap, hview, ⟨hlen, hacc⟩, hwidth⟩ := h
    rw [hobuf, List.length_cons] at hlen
    exact ⟨hparams, hbuf, hcap, hview, ⟨Nat.le_of_succ_le hlen, hacc⟩, hwidth⟩
  | timeout =>
    obtain ⟨hparams, hbuf, -, hview, hqueue, hwidth⟩ := h
    exact inv_endCapture (by decide) hparams hbuf hview hqueue hwidth
  | reset => exact inv_resetWith h.1

/-- Settles O37: taking an entry off the schedule keeps the invariant, and so does each agent's step. -/
theorem invariantIsKeptByEveryStep : Obligations.InvariantIsKeptByEveryStep :=
  fun _ _ => step_keeps (fun _ _ h => h) inv_agentEffect

/-! ### Bytes at ILEN and above (10_state.md R24, R41) -/

/-- The two memories agree on every index below n. -/
def AgreeBelow (n : Nat) (m m' : Memory) : Prop := ∀ i, i < n → m'.read? i = m.read? i

theorem AgreeBelow.readMany? {n i k : Nat} {m m' : Memory} (h : AgreeBelow n m m') (hik : i + k ≤ n) :
    m'.readMany? i k = m.readMany? i k :=
  Memory.readMany?_congr fun j hj => h (i + j) (by omega)

/-- Bytes written at the same indices leave two memories in agreement wherever they agreed, and where the bytes
are. -/
theorem AgreeBelow.writeMany {n k i : Nat} {m m' : Memory} {v : List Byte} (h : AgreeBelow n m m')
    (hk : ∀ x, x < k → x < n ∨ (i ≤ x ∧ x < i + v.length)) :
    AgreeBelow k (m.writeMany i v) (m'.writeMany i v) := by
  intro x hx
  rw [Memory.read?_writeMany, Memory.read?_writeMany]
  split
  · rfl
  · next hout => exact h x ((hk x hx).resolve_right hout)

theorem sameVisible_setIbuf {s : State} {m : Memory} (h : AgreeBelow s.ilen s.ibuf m) :
    SameVisible s { s with ibuf := m } := ⟨rfl, h⟩

/-- No register is made from the buffer's cells. -/
theorem regValue_eq_of_sameVisible {s t : State} (h : SameVisible s t) (n : Word) : regValue s n = regValue t n := by
  rw [h.1]; rfl

/-- Two answers that show the same: next states that differ only above ILEN, or the same stop. -/
inductive SameAnswer : Result → Result → Prop
  | next {s t : State} (h : SameVisible s t) : SameAnswer (.next s) (.next t)
  | fault (f : Fault) : SameAnswer (.fault f) (.fault f)
  | refused (r : Refusal) : SameAnswer (.refused r) (.refused r)

theorem SameAnswer.ite {c : Prop} [Decidable c] {a a' b b' : Result} (ha : SameAnswer a a')
    (hb : SameAnswer b b') : SameAnswer (if c then a else b) (if c then a' else b') := by
  split
  · exact ha
  · exact hb

theorem SameAnswer.withAccess {α : Type} {r r' : Except Fault α} {go go' : α → Result} (hr : r' = r)
    (hgo : ∀ a, SameAnswer (go a) (go' a)) : SameAnswer (withAccess r go) (withAccess r' go') := by
  subst hr
  cases r' with
  | ok a => exact hgo a
  | error f => exact .fault f

/-- `MemRead` reads below ILEN only (00_scope.md R15). -/
theorem memRead_setIbuf {s : State} {m : Memory} (h : AgreeBelow s.ilen s.ibuf m) (i n : Nat) :
    memRead i n { s with ibuf := m } = memRead i n s := by
  unfold memRead
  split
  · next hin => rw [show m.readMany? i n = s.ibuf.readMany? i n from h.readMany? hin]
  · rfl

theorem sameAnswer_withMemWrite {s : State} {m : Memory} {i : Nat} {v : List Byte} {go go' : State → Result}
    (hgo : SameAnswer (go { s with ibuf := s.ibuf.writeMany i v }) (go' { s with ibuf := m.writeMany i v })) :
    SameAnswer (withAccess (memWrite i v s) go) (withAccess (memWrite i v { s with ibuf := m }) go') := by
  unfold memWrite
  split
  · exact hgo
  · exact .fault _

section
variable {s : State} {m : Memory} (h : AgreeBelow s.ilen s.ibuf m)
include h

theorem sameAnswer_raiseOpError (c : OpErr) :
    SameAnswer (raiseOpError c s) (raiseOpError c { s with ibuf := m }) :=
  .next (sameVisible_setIbuf (s := { s with operr := c }) h)

theorem sameAnswer_withFreePort (v : List Byte) {go go' : Result} (hgo : SameAnswer go go') :
    SameAnswer (withFreePort v s go) (withFreePort v { s with ibuf := m } go') :=
  .ite (sameAnswer_raiseOpError h .busy) (.ite (sameAnswer_raiseOpError h .tooLong) hgo)

theorem sameAnswer_execIbufLoad (bytes : List Byte) :
    SameAnswer (execIbufLoad bytes s) (execIbufLoad bytes { s with ibuf := m }) := by
  have hnew : AgreeBelow bytes.length (s.ibuf.writeMany 0 bytes) (m.writeMany 0 bytes) :=
    h.writeMany fun x hx => .inr ⟨Nat.zero_le x, by omega⟩
  exact .ite (sameAnswer_raiseOpError h .busy) <| .ite (sameAnswer_raiseOpError h .tooLong) <|
    sameAnswer_withMemWrite (.next ⟨rfl, hnew⟩)

theorem sameAnswer_execDecodeReport :
    SameAnswer (execDecodeReport s) (execDecodeReport { s with ibuf := m }) :=
  .ite (sameAnswer_raiseOpError h .notReady) <|
    .ite (.next ⟨rfl, h⟩) <| .ite (.next ⟨rfl, h⟩) <| .ite (.next ⟨rfl, h⟩) <|
      .withAccess (memRead_setIbuf h _ _) fun _ => .next ⟨rfl, h⟩

theorem sameAnswer_execCmdParse : SameAnswer (execCmdParse s) (execCmdParse { s with ibuf := m }) :=
  .ite (sameAnswer_raiseOpError h .notReady) <|
    .ite (.next ⟨rfl, h⟩) <| .ite (.next ⟨rfl, h⟩) <|
      .withAccess (memRead_setIbuf h _ _) fun _ => .next ⟨rfl, h⟩

theorem sameAnswer_execDecodeStatus (a : AccSel) :
    SameAnswer (execDecodeStatus a s) (execDecodeStatus a { s with ibuf := m }) :=
  .ite (sameAnswer_raiseOpError h .notReady) <|
    .ite (.next ⟨rfl, h⟩) <| .ite (.next ⟨rfl, h⟩) <| .ite (.next ⟨rfl, h⟩) <|
      .withAccess (memRead_setIbuf h _ _) fun _ => .next ⟨by cases a <;> rfl, h⟩

theorem sameAnswer_exec (i : Instr) : SameAnswer (exec i s) (exec i { s with ibuf := m }) := by
  have hempty : AgreeBelow 0 s.ibuf m := fun i hi => absurd hi (Nat.not_lt_zero i)
  cases i with
  | nop | txFlush => exact .next ⟨rfl, h⟩
  | capClear => exact .next ⟨rfl, hempty⟩
  | capArm p => exact .ite (sameAnswer_raiseOpError h .busy) (.next ⟨rfl, hempty⟩)
  | ibufLoad bytes => exact sameAnswer_execIbufLoad h bytes
  | extract p =>
    exact .ite (sameAnswer_raiseOpError h .notReady) <|
      .withAccess (memRead_setIbuf h _ _) fun _ => .next ⟨rfl, h⟩
  | decodeReport => exact sameAnswer_execDecodeReport h
  | cmdParse => exact sameAnswer_execCmdParse h
  | encode w v => exact sameAnswer_withFreePort h v (.next ⟨rfl, h⟩)
  | send w v => exact sameAnswer_withFreePort h v (.next ⟨rfl, hempty⟩)
  | decodeStatus a => exact sameAnswer_execDecodeStatus h a
  | accWr idx valid code => exact .ite (sameAnswer_raiseOpError h .badIndex) (.next ⟨rfl, h⟩)

theorem sameAnswer_runRequest (q : OpRequest) :
    SameAnswer (runRequest q s) (runRequest q { s with ibuf := m }) := by
  unfold runRequest
  cases decode q with
  | ok i => exact sameAnswer_exec h i
  | error _ => exact sameAnswer_raiseOpError h .illegal

theorem sameAnswer_evRdbuf (i : Word) : SameAnswer (evRdbuf i s) (evRdbuf i { s with ibuf := m }) := by
  refine .withAccess ?_ fun _ => .next ⟨rfl, h⟩
  simp only [rdbuf, memRead_setIbuf h]

/-- The byte received is the one new visible byte, and it is the same in both. -/
theorem sameAnswer_evRx (b : Byte) : SameAnswer (evRx b s) (evRx b { s with ibuf := m }) := by
  have hnew : AgreeBelow (received b s).ilen (received b s).ibuf (m.write s.ilen b) :=
    h.writeMany (i := s.ilen) (v := [b]) fun x (hx : x < s.ilen + 1) => by simp only [List.length_singleton]; omega
  exact .ite (.next ⟨rfl, h⟩) <| sameAnswer_withMemWrite <|
    .withAccess (memRead_setIbuf (s := received b s) hnew _ _) fun _ =>
      .ite (.next ⟨rfl, hnew⟩) (.ite (.next ⟨rfl, hnew⟩) (.next ⟨rfl, hnew⟩))

theorem sameAnswer_runEvent (e : Event) : SameAnswer (runEvent e s) (runEvent e { s with ibuf := m }) := by
  cases e with
  | op q => exact sameAnswer_runRequest h q
  | rdreg n => exact .next ⟨rfl, h⟩
  | rdbuf i => exact sameAnswer_evRdbuf h i
  | rx b => exact sameAnswer_evRx h b
  | tx =>
    dsimp only [runEvent, evTx]
    split
    · exact .next ⟨rfl, h⟩
    · exact .next ⟨rfl, h⟩
  | timeout => exact .ite (.next ⟨rfl, h⟩) (.next ⟨rfl, h⟩)
  | reset => exact .next ⟨rfl, fun i hi => absurd hi (Nat.not_lt_zero i)⟩

end

/-- Two states that differ only at and above ILEN take the same step. -/
theorem sameAnswer_step {s t : State} (h : SameVisible s t) : SameAnswer (step s) (step t) := by
  have ⟨ht, hm⟩ := h
  have hpending : t.pending = s.pending := by rw [ht]
  cases hp : s.pending with
  | nil =>
    rw [step_nil hp, step_nil (hpending.trans hp)]
    exact .next h
  | cons e rest =>
    rw [step_cons hp, step_cons (hpending.trans hp), ht]
    exact sameAnswer_runEvent (s := { s with pending := rest }) hm e

/-- Settles O42, from the two steps' answers. -/
theorem bytesAboveIlenAreNeverVisible : Obligations.BytesAboveIlenAreNeverVisible := by
  intro s t h
  have hstep := sameAnswer_step h
  generalize step s = r, step t = r' at hstep
  cases hstep with
  | @next s' t' hst =>
    refine ⟨?_, by simp, by simp⟩
    rintro _ ⟨⟩
    exact ⟨t', rfl, hst, regValue_eq_of_sameVisible hst⟩
  | fault f => simp
  | refused r => simp

/-! ### The fields of the status registers (10_state.md R22, R25, R27, R29, R31, R33) -/

/-- A field stands above the fields below it. -/
theorem toNat_append_eq_add {m n : Nat} (x : BitVec m) (y : BitVec n) :
    (x ++ y).toNat = x.toNat * 2 ^ n + y.toNat := by
  rw [BitVec.toNat_append, ← Nat.shiftLeft_add_eq_or_of_lt y.isLt, Nat.shiftLeft_eq]

theorem operrWord_toNat (e : OpErr) : (operrWord e).toNat = (operrCode e).toNat := by
  simp only [operrWord, toNat_append_eq_add, BitVec.toNat_ofNat, Nat.zero_mod, Nat.zero_mul, Nat.zero_add]

theorem capstatWord_toNat (c : CapStat) : (capstatWord c).toNat =
    c.active.toNat + 2 * (pairCode c.pair).toNat + 4 * (capEndCode c.ended).toNat + 32 * c.rxlost.toNat := by
  simp only [capstatWord, toNat_append_eq_add, BitVec.toNat_ofNat, BitVec.toNat_ofBool]
  omega

theorem extstatWord_toNat (e : ExtStat) : (extstatWord e).toNat =
    (extStateCode e.state).toNat + 4 * (pairCode e.pair).toNat + 8 * e.leadTail.toNat := by
  simp only [extstatWord, toNat_append_eq_add, BitVec.toNat_ofNat, BitVec.toNat_ofBool]
  omega

theorem repstatWord_toNat (r : RepStat) : (repstatWord r).toNat =
    (repResCode r.res).toNat + 4 * (tstateCode r.tstate).toNat + 32 * (creasonCode r.creason).toNat := by
  simp only [repstatWord, toNat_append_eq_add, BitVec.toNat_ofNat]
  omega

theorem cmdstatWord_toNat (c : CmdStat) :
    (cmdstatWord c).toNat = (cmdResCode c.res).toNat + 4 * c.lenMismatch.toNat := by
  simp only [cmdstatWord, toNat_append_eq_add, BitVec.toNat_ofNat, BitVec.toNat_ofBool]
  omega

theorem ststatWord_toNat (t : StStat) :
    (ststatWord t).toNat = (stResCode t.res).toNat + 8 * (aselCode t.asel).toNat := by
  simp only [ststatWord, toNat_append_eq_add, BitVec.toNat_ofNat]
  omega

/-- Settles O27: the codes by evaluation, the fields from each register's word as a number. -/
theorem statusRegisterLayouts : Obligations.StatusRegisterLayouts :=
  ⟨by decide, fun s => ⟨operrWord_toNat s.operr, capstatWord_toNat s.capstat, extstatWord_toNat s.extstat,
    repstatWord_toNat s.repstat, cmdstatWord_toNat s.cmdstat, ststatWord_toNat s.ststat⟩⟩

/-! ### The value registers (10_state.md R23, R26, R28, R30, R32, R34) -/

/-- Settles O55: a report field is zero-extended, a count or position is cut to 16 bits, and the invariant keeps
every count and position below 2^16. -/
theorem valueRegistersReadTheirFields : Obligations.ValueRegistersReadTheirFields := by
  have hlow : ∀ n, (BitVec.ofNat 16 n).toNat = n % 65536 := fun n => BitVec.toNat_ofNat n 16
  have hfield : ∀ {k} (x : BitVec k), k ≤ 16 → (x.zeroExtend 16).toNat = x.toNat :=
    fun _ hk => BitVec.toNat_setWidth_of_le hk
  refine ⟨fun s => ⟨hfield _ (by decide), hfield _ (by decide), hfield _ (by decide), hfield _ (by decide),
    hfield _ (by decide), hfield _ (by decide), rfl, rfl, rfl, hlow _, hlow _, hlow _, hlow _, hlow _, hlow _,
    hlow _⟩, fun s h => ?_⟩
  have hwhole : ∀ n, n < 65536 → (BitVec.ofNat 16 n).toNat = n := fun n hn =>
    (hlow n).trans (Nat.mod_eq_of_lt hn)
  obtain ⟨⟨hsize, hvmax, -⟩, ⟨-, hilen, -⟩, -, -, ⟨hobuf, -⟩, hhpos, hstart, hlen, hvstart, hvlen⟩ := h
  have hobufCap : s.params.obufCap = 12 + s.params.vmax := rfl
  exact ⟨hwhole _ (by omega), hwhole _ hhpos, hwhole _ hstart, hwhole _ hlen, hwhole _ hvstart, hwhole _ hvlen,
    hwhole s.obuf.length (by omega)⟩

/-! ### The accept list's registers and the unmapped numbers (10_state.md R35, R38) -/

/-- From 0x1A on, the mapped numbers are those of the accept list's entries. -/
theorem regValue_of_ge {s : State} {n : Word} (h : 0x1A ≤ n.toNat) : regValue s n =
    if 0x20 ≤ n.toNat ∧ n.toNat < 0x20 + s.params.nacc then accCodeWord s.acc (n.toNat - 0x20) else 0#16 := by
  unfold regValue
  split
  case h_27 => rfl
  all_goals omega

/-- Bit i is the valid bit of entry i, and 0 from the list's end on. -/
theorem testBit_validBits (acc : List AccEntry) (i : Nat) :
    (validBits acc).testBit i = (acc[i]?.map AccEntry.valid).getD false := by
  induction acc generalizing i with
  | nil => simp [validBits]
  | cons e es ih =>
    rw [validBits, Nat.add_comm, ← Nat.bit_val]
    cases i with
    | zero => simp
    | succ i => simp [Nat.testBit_bit_succ, ih]

theorem getLsbD_accValidWord {nacc i : Nat} (acc : List AccEntry) (hi : i < 16) :
    (accValidWord nacc acc).getLsbD i = ((acc.take nacc)[i]?.map AccEntry.valid).getD false := by
  rw [accValidWord, BitVec.getLsbD_ofNat, testBit_validBits, decide_eq_true hi, Bool.true_and]

/-- Settles O29: the valid bits as the bits of a number, and the entry's number in the register map. -/
theorem acceptListReadsBack : Obligations.AcceptListReadsBack := by
  intro s i e hnacc hi he
  constructor
  · have hbit := getLsbD_accValidWord (nacc := s.params.nacc) (i := i) s.acc (by omega)
    rwa [List.getElem?_take_of_lt hi, he] at hbit
  · have hn : (BitVec.ofNat 16 (0x20 + i)).toNat = 0x20 + i := by
      rw [BitVec.toNat_ofNat, Nat.mod_eq_of_lt (by omega)]
    rw [regValue_of_ge (by omega), hn, if_pos (by omega), Nat.add_sub_cancel_left, accCodeWord,
      List.getD_eq_getElem?_getD, he, Option.getD_some]

/-- Settles O28: a status register is the sum of its fields, a report field has its own width, and the accept list
ends at NACC. -/
theorem reservedBitsAndNumbersReadZero : Obligations.ReservedBitsAndNumbersReadZero := by
  intro s
  obtain ⟨-, hlayout⟩ := statusRegisterLayouts
  obtain ⟨hoperr, hcap, hext, hrep, hcmd, hst⟩ := hlayout s
  obtain ⟨hvalues, -⟩ := valueRegistersReadTheirFields
  obtain ⟨hraw, hmdist, hmenergy, hsdist, hsenergy, hdist, -⟩ := hvalues s
  refine ⟨fun n hn => ?_, by omega, ?_, ?_, by omega, by omega, by omega, by omega, by omega, by omega, by omega,
    ?_, by omega, fun i hi h16 => ?_⟩
  · rw [regValue_of_ge (by omega), if_neg (by omega)]
  · have := s.capstat.active.toNat_lt
    have := s.capstat.rxlost.toNat_lt
    omega
  · have := s.extstat.leadTail.toNat_lt
    omega
  · have := s.cmdstat.lenMismatch.toNat_lt
    omega
  · refine (getLsbD_accValidWord s.acc h16).trans ?_
    rw [List.getElem?_eq_none ((List.length_take_le _ _).trans hi)]
    rfl

/-! ### What the agents' steps keep (10_state.md R27, R28, R31–R33, R36) -/

theorem opEffect_params {i : Instr} {s u : State} (he : OpEffect s i u) : u.params = s.params := by
  cases he <;> rfl

theorem agentEffect_params {e : Event} {s t : State} (he : AgentEffect s e t) : t.params = s.params := by
  cases he with
  | op hdecode heffect c => exact (opEffect_params heffect :)
  | _ => rfl

/-- Settles O44: every agent's step keeps the parameters, which the configuration registers read. -/
theorem configurationNeverChanges : Obligations.ConfigurationNeverChanges :=
  ⟨fun s _ => step_keeps (P := fun t => t.params = s.params) (fun _ _ h => h)
    (fun _ _ _ h he => (agentEffect_params he).trans h) rfl, fun _ => ⟨rfl, rfl, rfl⟩⟩

/-- Settles O45: of the agents' steps only an operation and reset have an effect on OPERR. -/
theorem eventsDoNotWriteOperr : Obligations.EventsDoNotWriteOperr := by
  intro s t e rest hp h hop hreset
  cases step_effect hp h with
  | illegal | op => exact absurd rfl (hop _)
  | reset => exact absurd rfl hreset
  | _ => rfl

/-- Only DECODE_REPORT and DECODE_STATUS write a result register, and each writes its own consistently. -/
theorem resultInv_opEffect {i : Instr} {s u : State} (h : ResultInv s) (he : OpEffect s i u) : ResultInv u := by
  obtain ⟨htstate, hcreason, hcode⟩ := h
  cases he with
  | reportCorrupt why hwhy => exact ⟨htstate, iff_of_false hwhy fun hr => hr rfl, hcode⟩
  | reportValid P => exact ⟨rfl, iff_of_true rfl (by simp [reportValid]), hcode⟩
  | decodeStatus a r code hr => exact ⟨htstate, hcreason, hr⟩
  | _ => exact ⟨htstate, hcreason, hcode⟩

theorem resultInv_agentEffect (e : Event) (s t : State) (h : ResultInv s) (he : AgentEffect s e t) :
    ResultInv t := by
  cases he with
  | op hdecode heffect c => exact (resultInv_opEffect h heffect :)
  | reset => exact resultInv_resetWith s.params
  | _ => exact h

/-- Settles O41: the schedule does not matter to the result registers, and each agent's step keeps them consistent. -/
theorem resultRegistersStayConsistent : Obligations.ResultRegistersStayConsistent :=
  fun _ _ => step_keeps (fun _ _ h => h) resultInv_agentEffect

/-! ### Who writes a register (10_state.md R37, R39)

One frame lemma for each group of fields that some step writes together: every register made of none of them reads
as before. -/

section
variable (s : State) {n : Word}

theorem regValue_set_operr (c : OpErr) (h : n.toNat ≠ 0x00) : regValue { s with operr := c } n = regValue s n := by
  unfold regValue
  split
  case h_1 => contradiction
  all_goals rfl

theorem regValue_set_capture (c : CapStat) (l : Nat) (m : Memory) (e : ExtStat) (d : CmdStat)
    (h : n.toNat ∉ [0x01, 0x02, 0x03, 0x0E]) :
    regValue { s with capstat := c, ilen := l, ibuf := m, extstat := e, cmdstat := d } n = regValue s n := by
  unfold regValue
  split
  case h_2 | h_3 | h_4 | h_15 => simp_all
  all_goals rfl

theorem regValue_set_capstat (c : CapStat) (h : n.toNat ≠ 0x01) :
    regValue { s with capstat := c } n = regValue s n := by
  unfold regValue
  split
  case h_2 => contradiction
  all_goals rfl

theorem regValue_set_extraction (e : ExtStat) (hpos start len : Nat) (h : n.toNat ∉ [0x03, 0x04, 0x05, 0x06]) :
    regValue { s with extstat := e, extHpos := hpos, extStart := start, extLen := len } n = regValue s n := by
  unfold regValue
  split
  case h_4 | h_5 | h_6 | h_7 => simp_all
  all_goals rfl

theorem regValue_set_report (r : RepStat) (raw menergy senergy : Byte) (mdist sdist dist : BitVec 15)
    (h : n.toNat ∉ [0x07, 0x08, 0x09, 0x0A, 0x0B, 0x0C, 0x0D]) :
    regValue { s with
      repstat := r, repRawState := raw, repMdist := mdist, repMenergy := menergy, repSdist := sdist,
      repSenergy := senergy, repDist := dist } n = regValue s n := by
  unfold regValue
  split
  case h_8 | h_9 | h_10 | h_11 | h_12 | h_13 | h_14 => simp_all
  all_goals rfl

theorem regValue_set_command (c : CmdStat) (lenf word : Word) (vstart vlen : Nat)
    (h : n.toNat ∉ [0x0E, 0x0F, 0x10, 0x11, 0x12]) :
    regValue { s with
      cmdstat := c, cmdLenf := lenf, cmdWord := word, cmdVstart := vstart, cmdVlen := vlen } n = regValue s n := by
  unfold regValue
  split
  case h_15 | h_16 | h_17 | h_18 | h_19 => simp_all
  all_goals rfl

theorem regValue_set_status (t : StStat) (code : Word) (h : n.toNat ∉ [0x13, 0x14]) :
    regValue { s with ststat := t, stCode := code } n = regValue s n := by
  unfold regValue
  split
  case h_20 | h_21 => simp_all
  all_goals rfl

theorem regValue_set_obuf (v : List Byte) (h : n.toNat ≠ 0x15) :
    regValue { s with obuf := v } n = regValue s n := by
  unfold regValue
  split
  case h_22 => contradiction
  all_goals rfl

theorem regValue_set_entry (i : Nat) (e : AccEntry) (h : n.toNat ∉ [0x19, 0x20 + i]) :
    regValue { s with acc := s.acc.set i e } n = regValue s n := by
  unfold regValue
  split
  case h_26 => simp_all
  case h_27 =>
    refine if_ctx_congr Iff.rfl (fun hk => ?_) fun _ => rfl
    have hi : i ≠ n.toNat - 0x20 := by
      simp only [List.mem_cons, List.not_mem_nil, or_false, not_or] at h
      omega
    simp only [accCodeWord, List.getD_eq_getElem?_getD, List.getElem?_set_ne hi]
  all_goals rfl

theorem regValue_configuration {t : State} (hparams : t.params = s.params) (h : n.toNat ∈ [0x16, 0x17, 0x18]) :
    regValue t n = regValue s n := by
  simp only [List.mem_cons, List.not_mem_nil, or_false] at h
  obtain h | h | h := h <;> simp only [regValue, h, hparams]

end

/-- An operation's effect leaves the registers that the map's "written by" column does not name for it. -/
theorem opEffect_regValue {i : Instr} {s u : State} (he : OpEffect s i u) {n : Word}
    (hn : n.toNat ∉ operationWrites i) : regValue u n = regValue s n := by
  cases he with
  | unchanged => rfl
  | capClear | capArm | ibufLoad => exact regValue_set_capture s _ _ _ _ _ hn
  | extract => exact regValue_set_extraction s _ _ _ _ hn
  | reportCorrupt | reportValid => exact regValue_set_report s _ _ _ _ _ _ _ hn
  | parseFailed | parseBody => exact regValue_set_command s _ _ _ _ _ hn
  | encode w v => exact regValue_set_obuf s _ (by simpa [operationWrites] using hn)
  | send w v =>
    have hobuf : n.toNat ≠ 0x15 := fun h => hn (by simp [operationWrites, h])
    have hcapture : n.toNat ∉ [0x01, 0x02, 0x03, 0x0E] := fun h => hn (List.mem_append_left [0x15] h)
    exact (regValue_set_capture (obufPush (cmdframe w v) s) _ _ _ _ _ hcapture).trans (regValue_set_obuf s _ hobuf)
  | decodeStatus => exact regValue_set_status s _ _ hn
  | accWr => exact regValue_set_entry s _ _ hn
  | txFlush => exact regValue_set_obuf s _ (by simpa [operationWrites] using hn)

theorem mayWrite_op {q : OpRequest} {i : Instr} (hd : decode q = .ok i) {n : Nat} :
    MayWrite (.op q) n ↔ n = 0x00 ∨ n ∈ operationWrites i := by
  simp only [MayWrite, hd]

/-- One agent's step leaves the registers that the map does not name for it. -/
theorem agentEffect_regValue {e : Event} {s t : State} (he : AgentEffect s e t) {n : Word}
    (hn : ¬ MayWrite e n.toNat) : regValue t n = regValue s n := by
  cases he with
  | rdreg | rdbuf | txIdle | timeoutIdle => rfl
  | illegal q => exact regValue_set_operr s _ fun h => hn (.inl h)
  | @op q i u hdecode heffect c =>
    rw [mayWrite_op hdecode, not_or] at hn
    exact (regValue_set_operr u c hn.1).trans (opEffect_regValue heffect hn.2)
  | rxLost | rxAppended | rxEnded => exact regValue_set_capture s _ _ _ _ _ hn
  | tx => exact regValue_set_obuf s _ hn
  | timeout => exact regValue_set_capstat s _ hn
  | reset => exact regValue_configuration s rfl (not_not.mp hn)

/-- Settles O43: a register not named for an agent's step reads as before it. -/
theorem registersChangeOnlyAsTheMapSays : Obligations.RegistersChangeOnlyAsTheMapSays :=
  fun _ _ _ _ _ hp h hne => not_not.mp fun hn => hne (agentEffect_regValue (step_effect hp h) hn)

end Sys2Proof.Proofs.BlockState

/-! PROOFS for the family of 20_memory.md: the decoders write only their own result registers and OPERR (R58). -/

namespace Sys2Proof.Proofs.MemoryAccess

open Sys2Proof.Machine

/-! ### What each decoder leaves unchanged (20_memory.md R58) -/

theorem execExtract_frame {p : Pair} {s t : State} (h : execExtract p s = .next t) :
    t = { s with extstat := t.extstat, extHpos := t.extHpos, extStart := t.extStart, extLen := t.extLen,
                 operr := t.operr } := by
  obtain ⟨-, rfl⟩ | ⟨_, -, -, rfl⟩ := execExtract_next h <;> rfl

theorem execDecodeReport_frame {s t : State} (h : execDecodeReport s = .next t) :
    t = { s with repstat := t.repstat, repRawState := t.repRawState, repMdist := t.repMdist,
                 repMenergy := t.repMenergy, repSdist := t.repSdist, repSenergy := t.repSenergy,
                 repDist := t.repDist, operr := t.operr } := by
  obtain ⟨-, rfl⟩ | ⟨-, _, -, rfl⟩ | ⟨_, -, -, -, -, rfl⟩ := execDecodeReport_next h <;> rfl

/-- Of the outcomes that raise no error, the one that answers CORRUPT writes RES and CREASON only
(10_state.md R28). -/
theorem execDecodeReport_corrupt {s t : State} (h : execDecodeReport s = .next t)
    (hcorrupt : t.repstat.res = .corrupt) (hok : t.operr = .ok) :
    t = { s with repstat := { s.repstat with res := .corrupt, creason := t.repstat.creason }, operr := .ok } := by
  obtain ⟨-, rfl⟩ | ⟨-, _, -, rfl⟩ | ⟨_, -, -, -, -, rfl⟩ := execDecodeReport_next h
  · cases hok
  · rfl
  · cases hcorrupt

theorem execCmdParse_frame {s t : State} (h : execCmdParse s = .next t) :
    t = { s with cmdstat := t.cmdstat, cmdLenf := t.cmdLenf, cmdWord := t.cmdWord, cmdVstart := t.cmdVstart,
                 cmdVlen := t.cmdVlen, operr := t.operr } := by
  obtain ⟨-, rfl⟩ | ⟨-, _, -, rfl⟩ | ⟨_, -, -, -, -, rfl⟩ := execCmdParse_next h <;> rfl

/-- Only a parse that answers OK writes the command value registers (10_state.md R30). -/
theorem execCmdParse_notOk {s t : State} (h : execCmdParse s = .next t) (hres : t.cmdstat.res ≠ .ok) :
    t = { s with cmdstat := t.cmdstat, operr := t.operr } := by
  obtain ⟨-, rfl⟩ | ⟨-, _, -, rfl⟩ | ⟨_, -, -, -, -, rfl⟩ := execCmdParse_next h
  · rfl
  · rfl
  · exact absurd rfl hres

theorem execDecodeStatus_frame {a : AccSel} {s t : State} (h : execDecodeStatus a s = .next t) :
    t = { s with ststat := t.ststat, stCode := t.stCode, operr := t.operr } := by
  obtain ⟨-, rfl⟩ | ⟨-, _, -, -, rfl⟩ | ⟨_, -, -, -, -, -, rfl⟩ := execDecodeStatus_next h <;> rfl

/-- Settles O48, from the frame of each decoder and the outcomes that keep the value registers. -/
theorem decodersWriteOnlyTheirOwnResults : Obligations.DecodersWriteOnlyTheirOwnResults :=
  ⟨fun _ _ _ h => execExtract_frame h,
    fun _ _ h => ⟨execDecodeReport_frame h, execDecodeReport_corrupt h⟩,
    fun _ _ h => ⟨execCmdParse_frame h, execCmdParse_notOk h⟩,
    fun _ _ _ h => execDecodeStatus_frame h⟩

end Sys2Proof.Proofs.MemoryAccess

/-! PROOFS for the family of 30_encoding.md: what the decoder reads from an op word of each format and from a whole
triple (R70–R73, R75), the opcode map (R73, R74), and the pseudo-operations (R88). -/

namespace Sys2Proof.Proofs.Encoding

open Sys2Proof.Machine Sys2Proof.Proofs.Scope

/-! ### The fields of an op word (30_encoding.md R70, R72)

As numbers, OPC is `w.toNat / 4096` and FN is `w.toNat % 4096`, with each format's field at its low end. -/

theorem opcField_toNat (w : Word) : (opcField w).toNat = w.toNat / 4096 := by
  rw [opcField, BitVec.extractLsb'_toNat, Nat.shiftRight_eq_div_pow, Nat.mod_eq_of_lt (by omega)]

/-- The r reserved bits above a field of k bits are 0 iff FN fits into the field. -/
theorem reserved_eq_zero_iff (w : Word) {k r : Nat} (h : k + r = 12) :
    w.extractLsb' k r = 0#r ↔ w.toNat % 4096 < 2 ^ k := by
  have hfn : 2 ^ k * 2 ^ r = 4096 := by rw [← Nat.pow_add, h]
  rw [BitVec.toNat_eq, BitVec.extractLsb'_toNat, BitVec.toNat_ofNat, Nat.zero_mod, Nat.shiftRight_eq_div_pow,
    ← Nat.mod_mul_right_div_self, hfn, Nat.div_eq_zero_iff_lt (Nat.two_pow_pos k)]

theorem getLsbD_toNat (w : Word) (k : Nat) : (w.getLsbD k).toNat = w.toNat / 2 ^ k % 2 := Nat.toNat_testBit ..

theorem pairBit_pairOfBit (b : Bool) : (pairBit (pairOfBit b)).toNat = b.toNat := by cases b <;> rfl

/-- ASEL = OPW[1:0] selects by its code, and the code 3 selects nothing (30_encoding.md R72, R75). -/
theorem selOfCode_cases (w : Word) :
    (∃ a, selOfCode w = .ok a ∧ w.toNat % 4 = (selCode a).toNat) ∨
    (selOfCode w = .error .reservedAsel ∧ w.toNat % 4 = 3) := by
  have hcode : (w.extractLsb' 0 2).toNat = w.toNat % 4 := BitVec.extractLsb'_toNat ..
  unfold selOfCode
  rw [hcode]
  split
  · next h => exact .inl ⟨_, rfl, h⟩
  · next h => exact .inl ⟨_, rfl, h⟩
  · next h => exact .inl ⟨_, rfl, h⟩
  · next h0 h1 h2 =>
    have hlt : w.toNat % 4 < 4 := Nat.mod_lt _ (by decide)
    exact .inr ⟨rfl, by grind⟩

/-! ### What the decoder reads from a triple (30_encoding.md R70–R73, R75) -/

/-- The op words R75 lists: a reserved OPC, a reserved bit of the OPC's format set, or ASEL = 3. -/
abbrev IllegalOpWord (w : Word) : Prop :=
  0xC ≤ w.toNat / 4096 ∨
  (w.toNat / 4096 ∈ [0x0, 0x1, 0x3, 0x5, 0x6, 0x7, 0x8, 0xB] ∧ w.toNat % 4096 ≠ 0) ∨
  (w.toNat / 4096 ∈ [0x2, 0x4] ∧ 2 ≤ w.toNat % 4096) ∨
  (w.toNat / 4096 = 0x9 ∧ 3 ≤ w.toNat % 4096) ∨
  (w.toNat / 4096 = 0xA ∧ 32 ≤ w.toNat % 4096)

/-- DWORD as an operation of OPC k takes it: the triple's for ENCODE, SEND and ACC_WR (30_encoding.md R71). -/
def dwordUsed (d : Word) (k : Nat) : Word := if k ∈ [0x7, 0x8, 0xA] then d else 0#16

/-- DBYTES as an operation of OPC k takes it: the triple's for IBUF_LOAD, ENCODE and SEND (30_encoding.md R71). -/
def dbytesUsed (b : List Byte) (k : Nat) : List Byte := if k ∈ [0x3, 0x7, 0x8] then b else []

/-- The triple with the operands its OPC does not use presented as DWORD = 0 and DBYTES = [] (30_encoding.md R71,
R87). -/
def canonical (q : OpRequest) : OpRequest where
  opw := q.opw
  dword := dwordUsed q.dword (q.opw.toNat / 4096)
  dbytes := dbytesUsed q.dbytes (q.opw.toNat / 4096)

/-- An answer the decoder may give to the triple: the operation the triple encodes, or an error for an illegal op
word. -/
def ReadsAs (q : OpRequest) : Except DecodeError Instr → Prop
  | .ok i => encode i = canonical q
  | .error _ => IllegalOpWord q.opw

section
variable {q : OpRequest} {k : Nat} (hopc : q.opw.toNat / 4096 = k)
include hopc

theorem encode_eq_canonical {i : Instr} (hopw : (opWord i).toNat = 4096 * k + q.opw.toNat % 4096)
    (hdword : dwordOperand i = dwordUsed q.dword k) (hdbytes : dbytesOperand i = dbytesUsed q.dbytes k) :
    encode i = canonical q := by
  have hw : opWord i = q.opw := BitVec.eq_of_toNat_eq (by omega)
  rw [encode, canonical, hw, hdword, hdbytes, hopc]

theorem readsAs_decodeN {i : Instr} (hk : k ∈ [0x0, 0x1, 0x3, 0x5, 0x6, 0x7, 0x8, 0xB])
    (hopw : (opWord i).toNat = 4096 * k)
    (hdword : dwordOperand i = dwordUsed q.dword k) (hdbytes : dbytesOperand i = dbytesUsed q.dbytes k) :
    ReadsAs q (decodeN q.opw i) := by
  simp only [decodeN, reserved_eq_zero_iff q.opw (k := 0) (r := 12) rfl]
  split
  · next h => exact encode_eq_canonical hopc (by omega) hdword hdbytes
  · next h => exact .inr (.inl ⟨hopc ▸ hk, by omega⟩)

theorem readsAs_decodeP {mk : Pair → Instr} (hk : k ∈ [0x2, 0x4])
    (hopw : ∀ p, (opWord (mk p)).toNat = 4096 * k + (pairBit p).toNat)
    (hdword : ∀ p, dwordOperand (mk p) = dwordUsed q.dword k)
    (hdbytes : ∀ p, dbytesOperand (mk p) = dbytesUsed q.dbytes k) :
    ReadsAs q (decodeP q.opw mk) := by
  simp only [decodeP, reserved_eq_zero_iff q.opw (k := 1) (r := 11) rfl]
  split
  · next h =>
    refine encode_eq_canonical hopc ?_ (hdword _) (hdbytes _)
    rw [hopw, pairBit_pairOfBit, getLsbD_toNat]
    omega
  · next h => exact .inr (.inr (.inl ⟨hopc ▸ hk, by omega⟩))

theorem readsAs_decodeA {mk : AccSel → Instr} (hk : k = 0x9)
    (hopw : ∀ a, (opWord (mk a)).toNat = 4096 * k + (selCode a).toNat)
    (hdword : ∀ a, dwordOperand (mk a) = dwordUsed q.dword k)
    (hdbytes : ∀ a, dbytesOperand (mk a) = dbytesUsed q.dbytes k) :
    ReadsAs q (decodeA q.opw mk) := by
  have hillegal : 3 ≤ q.opw.toNat % 4096 → IllegalOpWord q.opw := fun h =>
    .inr (.inr (.inr (.inl ⟨by omega, h⟩)))
  simp only [decodeA, reserved_eq_zero_iff q.opw (k := 2) (r := 10) rfl]
  split
  · next h =>
    obtain ⟨a, ha, hcode⟩ | ⟨he, hcode⟩ := selOfCode_cases q.opw
    · rw [ha]
      exact encode_eq_canonical hopc (by rw [hopw]; omega) (hdword a) (hdbytes a)
    · rw [he]
      exact hillegal (by omega)
  · next h => exact hillegal (by omega)

theorem readsAs_decodeC {mk : BitVec 4 → Bool → Instr} (hk : k = 0xA)
    (hopw : ∀ idx valid, (opWord (mk idx valid)).toNat = 4096 * k + 16 * valid.toNat + idx.toNat)
    (hdword : ∀ idx valid, dwordOperand (mk idx valid) = dwordUsed q.dword k)
    (hdbytes : ∀ idx valid, dbytesOperand (mk idx valid) = dbytesUsed q.dbytes k) :
    ReadsAs q (decodeC q.opw mk) := by
  simp only [decodeC, reserved_eq_zero_iff q.opw (k := 5) (r := 7) rfl]
  split
  · next h =>
    refine encode_eq_canonical hopc ?_ (hdword _ _) (hdbytes _ _)
    rw [hopw, getLsbD_toNat, BitVec.extractLsb'_toNat, Nat.shiftRight_zero]
    omega
  · next h => exact .inr (.inr (.inr (.inr ⟨by omega, by omega⟩)))

end

theorem opWord_accWr_toNat (idx : BitVec 4) (valid : Bool) (code : Word) :
    (opWord (.accWr idx valid code)).toNat = 0xA000 + 16 * valid.toNat + idx.toNat := by
  rw [opWord_accWr]
  revert idx valid
  decide

/-- The rows of the opcode map in its order, each read by its format, then the reserved OPC (30_encoding.md R73). -/
theorem readsAs_decode (q : OpRequest) : ReadsAs q (decode q) := by
  unfold decode
  rw [opcField_toNat]
  split
  · next h => exact readsAs_decodeN h (by decide) rfl rfl rfl
  · next h => exact readsAs_decodeN h (by decide) rfl rfl rfl
  · next h => exact readsAs_decodeP h (by decide) (by rintro ⟨⟩ <;> rfl) (fun _ => rfl) fun _ => rfl
  · next h => exact readsAs_decodeN h (by decide) rfl rfl rfl
  · next h => exact readsAs_decodeP h (by decide) (by rintro ⟨⟩ <;> rfl) (fun _ => rfl) fun _ => rfl
  · next h => exact readsAs_decodeN h (by decide) rfl rfl rfl
  · next h => exact readsAs_decodeN h (by decide) rfl rfl rfl
  · next h => exact readsAs_decodeN h (by decide) rfl rfl rfl
  · next h => exact readsAs_decodeN h (by decide) rfl rfl rfl
  · next h => exact readsAs_decodeA h rfl (by rintro ⟨⟩ <;> rfl) (fun _ => rfl) fun _ => rfl
  · next h =>
    exact readsAs_decodeC h rfl (fun idx valid => opWord_accWr_toNat idx valid _) (fun _ _ => rfl) fun _ _ => rfl
  · next h => exact readsAs_decodeN h (by decide) rfl rfl rfl
  · next h => exact .inl (by grind)

theorem encode_of_decode {q : OpRequest} {i : Instr} (h : decode q = .ok i) : encode i = canonical q := by
  have hread := readsAs_decode q
  rwa [h] at hread

/-- The decoder looks at DWORD and at DBYTES only for the OPC that uses them (30_encoding.md R71). -/
theorem decode_congr {w d d' : Word} {b b' : List Byte} (hd : w.toNat / 4096 ∈ [0x7, 0x8, 0xA] → d = d')
    (hb : w.toNat / 4096 ∈ [0x3, 0x7, 0x8] → b = b') : decode ⟨w, d, b⟩ = decode ⟨w, d', b'⟩ := by
  unfold decode
  rw [opcField_toNat]
  split
  case h_4 h => rw [hb (by simp [h])]
  case h_8 h | h_9 h => rw [hd (by simp [h]), hb (by simp [h])]
  case h_11 h => rw [hd (by simp [h])]
  all_goals rfl

theorem decode_canonical (q : OpRequest) : decode (canonical q) = decode q :=
  decode_congr (fun h => if_pos h) (fun h => if_pos h)

/-- A triple reads as the operation that encodes to it, up to the operands that are not used. -/
theorem decode_eq_ok_iff {q : OpRequest} {i : Instr} : decode q = .ok i ↔ encode i = canonical q :=
  ⟨encode_of_decode, fun h => by rw [← decode_canonical, ← h, decode_encode]⟩

/-- An operation's op word reads as the operation when the operands it uses are presented with it. -/
theorem decode_opWord {i : Instr} {k : Nat} {d : Word} {b : List Byte} (hopc : (opWord i).toNat / 4096 = k)
    (hdword : dwordOperand i = dwordUsed d k) (hdbytes : dbytesOperand i = dbytesUsed b k) :
    decode ⟨opWord i, d, b⟩ = .ok i :=
  decode_eq_ok_iff.mpr (by rw [encode, canonical, hdword, hdbytes, hopc])

/-! ### Decode and encode agree (30_encoding.md R70–R73, R87) -/

theorem presentable_encode (i : Instr) : (encode i).presentable = i.wellFormed := by cases i <;> rfl

theorem canonical_dword (q : OpRequest) : (canonical q).dword = q.dword ∨ (canonical q).dword = 0#16 :=
  ite_eq_or_eq ..

theorem canonical_dbytes (q : OpRequest) : (canonical q).dbytes = q.dbytes ∨ (canonical q).dbytes = [] :=
  ite_eq_or_eq ..

theorem presentable_canonical {q : OpRequest} (h : q.presentable = true) : (canonical q).presentable = true := by
  obtain hb | hb := canonical_dbytes q
  · rwa [OpRequest.presentable, hb]
  · rw [OpRequest.presentable, hb]; rfl

/-- Settles O1: the encoder's triple is read back, and a triple that reads as an operation has the operation's
triple as its canonical form. -/
theorem decodeInvertsEncode : Obligations.DecodeInvertsEncode := by
  refine ⟨fun i hwf => ⟨decode_encode i, by rwa [presentable_encode]⟩, fun q i h => ?_⟩
  have henc := encode_of_decode h
  rw [← presentable_encode, henc]
  exact ⟨rfl, canonical_dword q, canonical_dbytes q, presentable_canonical⟩

/-! ### The operands an operation uses (30_encoding.md R71) -/

/-- Settles O5, by the canonical form of the triples that use an operand and the decoder's indifference to the
operands of all others. -/
theorem unusedOperandsAreIgnored : Obligations.UnusedOperandsAreIgnored := by
  refine ⟨fun d b => ⟨?_, ?_, ?_⟩, fun idx valid d b => ?_, fun w d d' b b' hb hd => ?_, fun d d' b => ?_⟩
  · exact decode_opWord (i := .ibufLoad b) (k := 0x3) (by simp [opWord]) rfl rfl
  · exact decode_opWord (i := .encode d b) (k := 0x7) (by simp [opWord]) rfl rfl
  · exact decode_opWord (i := .send d b) (k := 0x8) (by simp [opWord]) rfl rfl
  · have hw : opWord (.accWr idx valid d) = BitVec.ofNat 16 (0xA000 + 16 * valid.toNat + idx.toNat) := by
      rw [← opWord_accWr_toNat idx valid d, BitVec.ofNat_toNat, BitVec.setWidth_eq]
    have hopc : (opWord (.accWr idx valid d)).toNat / 4096 = 0xA := by
      have hvalid : valid.toNat < 2 := valid.toNat_lt
      rw [opWord_accWr_toNat]
      omega
    rw [← hw]
    exact decode_opWord hopc rfl rfl
  · refine decode_congr (fun h => ?_) (fun h => absurd h hb)
    refine hd.resolve_left fun hne => ?_
    simp at h hb
    omega
  · exact decode_congr (fun h => absurd h (by decide)) (fun _ => rfl)

/-- Settles O4: the legal op words are the encoder's, with the operands it gives, and each illegal one is refused by
one check of the decoder. -/
theorem opWordsWrittenOutDecode : Obligations.OpWordsWrittenOutDecode :=
  ⟨decode_encode .nop, decode_encode .capClear, decode_encode (.capArm .command), decode_encode (.extract .report),
    decode_encode (.send 0x00FF#16 [1#8, 0#8]), decode_encode (.decodeStatus .user),
    decode_encode (.accWr 15#4 true 0xBEEF#16), rfl, rfl, rfl⟩

/-! ### The opcode map (30_encoding.md R73, R74) -/

/-- The op words a row selects: its match with the bits its mask leaves free, as far as ASEL allows. -/
def rowWords (r : OpRow) : List Word :=
  ((List.range ((~~~r.mask).toNat + 1)).map fun n => r.mtch ||| BitVec.ofNat 16 n).filter r.selects

theorem mem_rowWords_iff {r : OpRow} {w : Word} : w ∈ rowWords r ↔ r.selects w = true := by
  refine ⟨fun h => (List.mem_filter.mp h).2, fun h => List.mem_filter.mpr ⟨?_, h⟩⟩
  have hmtch : w &&& r.mask = r.mtch := by
    simp only [OpRow.selects, Bool.and_eq_true, beq_iff_eq] at h
    exact h.1
  refine List.mem_map.mpr ⟨(w &&& ~~~r.mask).toNat, ?_, ?_⟩
  · rw [List.mem_range, BitVec.toNat_and]
    exact Nat.lt_succ_of_le Nat.and_le_right
  · rw [BitVec.ofNat_toNat, BitVec.setWidth_eq, ← hmtch, ← BitVec.and_or_distrib_left, BitVec.or_not_self]
    exact BitVec.and_allOnes

/-- A selected op word is legal, and its OPC is the row's (30_encoding.md R73). -/
theorem selects_legal {r : OpRow} (hr : r ∈ opRows) {w : Word} (h : r.selects w = true) :
    ¬ IllegalOpWord w ∧ w.toNat / 4096 = r.mtch.toNat / 4096 :=
  have hrows : ∀ r ∈ opRows,
      (rowWords r).Forall fun w => ¬ IllegalOpWord w ∧ w.toNat / 4096 = r.mtch.toNat / 4096 := by decide
  List.forall_iff_forall_mem.mp (hrows r hr) w (mem_rowWords_iff.mpr h)

/-- "No two rows overlap, because their OPC values differ" (30_encoding.md R74). -/
theorem selects_unique {r r' : OpRow} (hr : r ∈ opRows) (hr' : r' ∈ opRows) {w : Word} (h : r.selects w = true)
    (h' : r'.selects w = true) : r' = r :=
  (by decide : ∀ r ∈ opRows, ∀ r' ∈ opRows, r'.mtch.toNat / 4096 = r.mtch.toNat / 4096 → r' = r)
    r hr r' hr' ((selects_legal hr' h').2.symm.trans (selects_legal hr h).2)

/-- Every operation's op word selects a row with its mnemonic: the model's laws, one for each operation. -/
theorem opWord_selects (i : Instr) : ∃ r ∈ opRows, r.mnemonic = i.mnemonic ∧ r.selects (opWord i) = true := by
  cases i with
  | nop => exact Laws.OpWord.nop
  | capClear => exact Laws.OpWord.capClear
  | capArm p => exact Laws.OpWord.capArm p
  | ibufLoad bytes => exact Laws.OpWord.ibufLoad bytes
  | extract p => exact Laws.OpWord.extract p
  | decodeReport => exact Laws.OpWord.decodeReport
  | cmdParse => exact Laws.OpWord.cmdParse
  | encode w v => exact Laws.OpWord.encode w v
  | send w v => exact Laws.OpWord.send w v
  | decodeStatus a => exact Laws.OpWord.decodeStatus a
  | accWr idx valid code => exact Laws.OpWord.accWr idx valid code
  | txFlush => exact Laws.OpWord.txFlush

theorem opw_eq_opWord {q : OpRequest} {i : Instr} (h : decode q = .ok i) : q.opw = opWord i :=
  congrArg OpRequest.opw (encode_of_decode h).symm

theorem exists_decode_error_iff (q : OpRequest) : (∃ e, decode q = .error e) ↔ IllegalOpWord q.opw := by
  have hread := readsAs_decode q
  cases hd : decode q with
  | error e => rw [hd] at hread; exact ⟨fun _ => hread, fun _ => ⟨e, rfl⟩⟩
  | ok i =>
    obtain ⟨r, hr, -, hsel⟩ := opWord_selects i
    have hlegal := (selects_legal hr hsel).1
    rw [← opw_eq_opWord hd] at hlegal
    exact ⟨fun ⟨_, he⟩ => (nomatch he), fun h => absurd h hlegal⟩

/-- Every op word is a legal one of exactly one row, or selects no row and is illegal (30_encoding.md R74). -/
theorem decode_row (q : OpRequest) :
    (∃ i r, decode q = .ok i ∧ r ∈ opRows ∧ r.selects q.opw = true ∧ r.mnemonic = i.mnemonic ∧
      ∀ r' ∈ opRows, r'.selects q.opw = true → r' = r) ∨
    (∃ e, decode q = .error e ∧ ∀ r ∈ opRows, r.selects q.opw = false) := by
  cases hd : decode q with
  | ok i =>
    obtain ⟨r, hr, hname, hsel⟩ := opWord_selects i
    rw [← opw_eq_opWord hd] at hsel
    exact .inl ⟨i, r, rfl, hr, hsel, hname, fun r' hr' hsel' => selects_unique hr hr' hsel hsel'⟩
  | error e =>
    have hillegal := (exists_decode_error_iff q).mp ⟨e, hd⟩
    exact .inr ⟨e, rfl, fun r hr => Bool.eq_false_iff.mpr fun hsel => (selects_legal hr hsel).1 hillegal⟩

/-- Every legal op word, row by row. -/
def legalOpWords : List Word := opRows.flatMap rowWords

theorem decode_ok_iff_mem_legalOpWords (q : OpRequest) : (∃ i, decode q = .ok i) ↔ q.opw ∈ legalOpWords := by
  rw [legalOpWords, List.mem_flatMap]
  constructor
  · rintro ⟨i, hd⟩
    obtain ⟨r, hr, -, hsel⟩ := opWord_selects i
    exact ⟨r, hr, mem_rowWords_iff.mpr (opw_eq_opWord hd ▸ hsel)⟩
  · rintro ⟨r, hr, hw⟩
    obtain ⟨i, _, hd, -⟩ | ⟨e, -, hnone⟩ := decode_row q
    · exact ⟨i, hd⟩
    · cases (mem_rowWords_iff.mp hw).symm.trans (hnone r hr)

/-- Settles O2, by the row of each triple and the list of the legal op words, which is counted. -/
theorem opWordDecodingIsTotalAndUnambiguous : Obligations.OpWordDecodingIsTotalAndUnambiguous :=
  ⟨decode_row, legalOpWords, by decide, by decide, decode_ok_iff_mem_legalOpWords, by decide⟩

/-! ### Illegal op words and NOP write only OPERR (30_encoding.md R75) -/

theorem step_of_decode_error {s : State} {q : OpRequest} {rest : List Event} {e : DecodeError}
    (hp : s.pending = .op q :: rest) (hd : decode q = .error e) :
    step s = .next { s with pending := rest, operr := .illegal } := by
  rw [step_cons hp]
  simp [runEvent, runRequest, hd, raiseOpError]

/-- ENCODE and SEND go on when nothing is queued, no capture is active and the value is short enough. -/
theorem withFreePort_of_free {v : List Byte} {s : State} (hobuf : s.obuf = []) (hactive : s.capstat.active = false)
    (hlen : v.length ≤ s.params.vmax) (go : Result) : withFreePort v s go = go := by
  simp [withFreePort, State.obufCount, hobuf, hactive, hlen]

theorem exec_encode_of_free {v : List Byte} {s : State} (hobuf : s.obuf = []) (hactive : s.capstat.active = false)
    (hlen : v.length ≤ s.params.vmax) (w : Word) :
    exec (.encode w v) s = .next { obufPush (cmdframe w v) s with operr := .ok } :=
  withFreePort_of_free hobuf hactive hlen _

theorem exec_send_of_free {v : List Byte} {s : State} (hobuf : s.obuf = []) (hactive : s.capstat.active = false)
    (hlen : v.length ≤ s.params.vmax) (w : Word) :
    exec (.send w v) s = .next { armCapture .command (obufPush (cmdframe w v) s) with operr := .ok } :=
  withFreePort_of_free hobuf hactive hlen _

theorem exec_ibufLoad_of_room {bytes : List Byte} {s : State} (hactive : s.capstat.active = false)
    (hlen : bytes.length ≤ s.params.ibufSize) :
    exec (.ibufLoad bytes) s = .next { BlockState.loadedWith bytes s with operr := .ok } := by
  have hw : memWrite 0 bytes s = .ok { s with ibuf := s.ibuf.writeMany 0 bytes } :=
    memWrite_ok.mpr ⟨by omega, rfl⟩
  rw [exec, execIbufLoad, if_neg (by simp [hactive]), if_neg (by omega), hw]
  rfl

theorem exec_accWr_of_lt {idx : BitVec 4} {s : State} (hidx : idx.toNat < s.params.nacc) (valid : Bool) (code : Word) :
    exec (.accWr idx valid code) s = .next { s with acc := s.acc.set idx.toNat ⟨valid, code⟩, operr := .ok } := by
  rw [exec, execAccWr, if_neg (by omega)]
  rfl

/-- The block after reset, with room for n bytes in the buffer and in a command, and 16 accept entries. -/
def resetWithRoom (n : Nat) : State := State.resetWith { ibufSize := n, vmax := n, nacc := 16 }

/-- Writing another value than the one everywhere in a list changes the list. -/
theorem set_replicate_ne {α : Type} {a b : α} {i n : Nat} (hne : b ≠ a) (hi : i < n) :
    (List.replicate n a).set i b ≠ List.replicate n a := fun h =>
  hne (List.eq_of_mem_replicate (h ▸ List.mem_set (by simpa using hi) b))

/-- Every operation but NOP has, in some state, an effect on more than OPERR. -/
theorem exists_effect {i : Instr} (hi : i ≠ .nop) :
    ∃ s t, exec i s = .next t ∧ t ≠ { s with operr := t.operr } := by
  cases i with
  | nop => exact absurd rfl hi
  | capClear => exact ⟨armCapture .report (resetWithRoom 0), _, rfl, by decide⟩
  | capArm p => exact ⟨resetWithRoom 0, _, rfl, fun h => nomatch congrArg (·.capstat.active) h⟩
  | ibufLoad bytes =>
    exact ⟨resetWithRoom bytes.length, _, exec_ibufLoad_of_room rfl le_rfl,
      fun h => nomatch congrArg (·.capstat.ended) h⟩
  | extract p => cases p <;> exact ⟨resetWithRoom 0, _, rfl, by decide⟩
  | decodeReport => exact ⟨{ resetWithRoom 0 with extstat := ⟨.noHeader, .report, false⟩ }, _, rfl, by decide⟩
  | cmdParse => exact ⟨{ resetWithRoom 0 with extstat := ⟨.noHeader, .report, false⟩ }, _, rfl, by decide⟩
  | encode w v =>
    exact ⟨resetWithRoom v.length, _, exec_encode_of_free rfl rfl le_rfl w, fun h => nomatch congrArg State.obuf h⟩
  | send w v =>
    exact ⟨resetWithRoom v.length, _, exec_send_of_free rfl rfl le_rfl w,
      fun h => nomatch congrArg (·.capstat.active) h⟩
  | decodeStatus a => exact ⟨resetWithRoom 0, _, rfl, fun h => nomatch congrArg (·.ststat.res) h⟩
  | accWr idx valid code =>
    exact ⟨{ resetWithRoom 0 with acc := List.replicate 16 ⟨!valid, code⟩ }, _,
      exec_accWr_of_lt idx.isLt valid code, fun h => set_replicate_ne (by simp) idx.isLt (congrArg State.acc h)⟩
  | txFlush => exact ⟨obufPush [0#8] (resetWithRoom 0), _, rfl, by decide⟩

/-- Settles O3: an op word is illegal exactly as R75 lists, and every operation but NOP has a state in which it has
an effect. -/
theorem illegalOpWordsWriteOnlyOperr : Obligations.IllegalOpWordsWriteOnlyOperr := by
  refine ⟨fun q rest s hp => ⟨(exists_decode_error_iff q).symm, fun e he => step_of_decode_error hp he⟩,
    fun i => ⟨fun honly => ?_, ?_⟩⟩
  · by_contra hi
    obtain ⟨s, t, ht, hne⟩ := exists_effect hi
    exact hne (honly s t ht)
  · rintro rfl s t h
    rw [execNop_next h]

/-! ### The pseudo-operations (30_encoding.md R88) -/

/-- A SEND from a free port with nothing queued leaves its frame alone in OBUF and a command capture active. -/
theorem exec_send_frame {v : List Byte} {s : State} (hobuf : s.obuf = []) (hactive : s.capstat.active = false)
    (hlen : v.length ≤ s.params.vmax) (w : Word) :
    ∃ t, exec (.send w v) s = .next t ∧ t.operr = .ok ∧ t.capstat = ⟨true, .command, .none, false⟩ ∧
      t.obuf = cmdframe w v :=
  ⟨_, exec_send_of_free hobuf hactive hlen w, rfl, rfl, by simp [hobuf]⟩

/-- Settles O54: each pseudo-operation is a SEND of at most two value bytes, whose frame is the table's. -/
theorem pseudoOperationsSendTheirFrames : Obligations.PseudoOperationsSendTheirFrames := by
  refine ⟨fun s hobuf hactive hvmax op => ?_, rfl, rfl, rfl, rfl, rfl⟩
  cases op with
  | enterConfig => exact exec_send_frame (v := [0x01#8, 0x00#8]) hobuf hactive hvmax _
  | exitConfig | enableEng | disableEng | readConfig =>
    exact exec_send_frame (v := []) hobuf hactive (Nat.zero_le _) _

end Sys2Proof.Proofs.Encoding

/-! PROOFS for the family of 40_frame_extractor.md: the delimiters (R110), the operations on the capture buffer
(R101–R104, R108), the events `rx` and `timeout` (R105, R106), how a capture ends (R107), and a whole capture. -/

namespace Sys2Proof.Proofs.FrameExtractor

open Sys2Proof.Machine Sys2Proof.Proofs.BlockState Sys2Proof.Proofs.Encoding

/-! ### Occurrences of a pattern (00_scope.md R16, 40_frame_extractor.md R110) -/

/-- Within the span of an occurrence the sequence's bytes are the pattern's. -/
theorem getElem?_of_standsAt {s p : List Byte} {i x : Nat} (h : StandsAt s p i) (hle : i ≤ x)
    (hlt : x < i + p.length) : s[x]? = p[x - i]? := by
  have hbyte := (standsAt_iff_getElem?.mp h).2 (x - i) (by omega)
  rwa [Nat.add_sub_cancel' hle] at hbyte

/-- Two patterns with no byte in common share no index. -/
theorem not_overlap_of_disjoint {s p q : List Byte} {i j x : Nat} (hpq : ∀ b ∈ p, b ∉ q) (hi : StandsAt s p i)
    (hj : StandsAt s q j) (hp : i ≤ x ∧ x < i + p.length) : ¬ (j ≤ x ∧ x < j + q.length) := by
  intro hq
  have hbyte := (getElem?_of_standsAt hi hp.1 hp.2).symm.trans (getElem?_of_standsAt hj hq.1 hq.2)
  rw [List.getElem?_eq_getElem (by omega : x - i < p.length)] at hbyte
  exact hpq _ (List.getElem_mem _) (List.mem_of_getElem? hbyte.symm)

/-- Two occurrences of a pattern of distinct bytes that share an index are the same occurrence. -/
theorem eq_of_overlap_of_nodup {s p : List Byte} {i j x : Nat} (hp : p.Nodup) (hi : StandsAt s p i)
    (hj : StandsAt s p j) (hxi : i ≤ x ∧ x < i + p.length) (hxj : j ≤ x ∧ x < j + p.length) : i = j := by
  have hbyte := (getElem?_of_standsAt hi hxi.1 hxi.2).symm.trans (getElem?_of_standsAt hj hxj.1 hxj.2)
  have hoffset := (List.getElem?_inj (by omega : x - i < p.length) hp).mp hbyte
  omega

theorem hdr_disjoint_tailOf (p : Pair) : ∀ b ∈ hdr p, b ∉ tailOf p := by cases p <;> decide

theorem hdr_nodup (p : Pair) : (hdr p).Nodup := by cases p <;> decide

theorem tailOf_nodup (p : Pair) : (tailOf p).Nodup := by cases p <;> decide

/-- A delimiter of four distinct bytes does not overlap itself. -/
theorem add_four_le_of_standsAt {s p : List Byte} {i j : Nat} (hp : p.Nodup) (hlen : p.length = 4) (hij : i < j)
    (hi : StandsAt s p i) (hj : StandsAt s p j) : i + 4 ≤ j := by
  by_contra hlt
  have := eq_of_overlap_of_nodup (x := j) hp hi hj (by omega) (by omega)
  omega

/-- Settles O21: an overlap would put one byte into both delimiters, or one byte twice into one. -/
theorem delimitersNeverOverlap : Obligations.DelimitersNeverOverlap := by
  refine ⟨fun p => ⟨hdr_disjoint_tailOf p, hdr_nodup p, tailOf_nodup p⟩, ⟨rfl, rfl, rfl, rfl⟩,
    fun p s h t hh ht => ?_, fun p s i j hij => ⟨?_, ?_⟩⟩
  · by_contra hoverlap
    have hlenh := hdr_length p
    have hlent := tailOf_length p
    exact not_overlap_of_disjoint (x := max h t) (hdr_disjoint_tailOf p) hh ht (by omega) (by omega)
  · exact add_four_le_of_standsAt (hdr_nodup p) (hdr_length p) hij
  · exact add_four_le_of_standsAt (tailOf_nodup p) (tailOf_length p) hij

/-- A sequence ends with a pattern iff the pattern is what is left behind some front part. -/
theorem endsWith_iff_exists_append {s p : List Byte} : endsWith s p = true ↔ ∃ front, s = front ++ p := by
  rw [endsWith_iff, StandsAt]
  constructor
  · rintro ⟨hle, -, heq⟩
    rw [List.take_of_length_le (by simp; omega)] at heq
    exact ⟨_, (List.take_append_drop (s.length - p.length) s).symm.trans (congrArg _ heq)⟩
  · rintro ⟨front, rfl⟩
    simp

theorem not_exists_append_of_not_standsAt {s p : List Byte} (h : ∀ i, ¬ StandsAt s p i) :
    ¬ ∃ front, s = front ++ p := fun hend =>
  h _ (endsWith_iff.mp (endsWith_iff_exists_append.mpr hend)).2

theorem standsAt_append_right {s p : List Byte} {i : Nat} (h : StandsAt s p i) (r : List Byte) :
    StandsAt (s ++ r) p i := by
  rw [standsAt_iff_getElem?] at h ⊢
  obtain ⟨hle, hbytes⟩ := h
  refine ⟨by simp; omega, fun k hk => ?_⟩
  rw [List.getElem?_append_left (by omega), hbytes k hk]

/-! ### What each operation answers (40_frame_extractor.md R102–R104, R107, R108) -/

theorem runRequest_of_illegal {q : OpRequest} (h : IllegalOpWord q.opw) (s : State) :
    runRequest q s = .next { s with operr := .illegal } := by
  obtain ⟨e, he⟩ := (exists_decode_error_iff q).mpr h
  simp [runRequest, he, raiseOpError]

section
variable {s : State} (ha : s.capstat.active = true)
include ha

theorem exec_capArm_of_active (p : Pair) : exec (.capArm p) s = .next { s with operr := .busy } := if_pos ha

theorem exec_ibufLoad_of_active (bytes : List Byte) :
    exec (.ibufLoad bytes) s = .next { s with operr := .busy } := if_pos ha

theorem exec_extract_of_active (p : Pair) : exec (.extract p) s = .next { s with operr := .notReady } := if_pos ha

theorem exec_decodeStatus_of_active (a : AccSel) :
    exec (.decodeStatus a) s = .next { s with operr := .notReady } := if_pos ha

theorem exec_encode_of_active (w : Word) (v : List Byte) :
    exec (.encode w v) s = .next { s with operr := .busy } := if_pos (.inr ha)

theorem exec_send_of_active (w : Word) (v : List Byte) :
    exec (.send w v) s = .next { s with operr := .busy } := if_pos (.inr ha)

end

theorem exec_capArm_of_inactive {s : State} (ha : s.capstat.active = false) (p : Pair) :
    exec (.capArm p) s = .next { armCapture p s with operr := .ok } := if_neg (by simp [ha])

theorem exec_ibufLoad_of_tooLong {bytes : List Byte} {s : State} (ha : s.capstat.active = false)
    (hlen : s.params.ibufSize < bytes.length) : exec (.ibufLoad bytes) s = .next { s with operr := .tooLong } :=
  (if_neg (by simp [ha])).trans (if_pos hlen)

theorem exec_extract_of_inactive {s : State} {bytes : List Byte} (ha : s.capstat.active = false)
    (hbytes : BufferHolds s bytes) (p : Pair) :
    exec (.extract p) s = .next { extractedFrom p bytes s with operr := .ok } := by
  rw [exec, execExtract, if_neg (by simp [ha]), hbytes.memRead_all]
  rfl

/-- Settles O10: the op words after 0x1000 have a reserved bit set, and CAP_CLEAR meets no condition. -/
theorem capClearEmptiesTheBuffer : Obligations.CapClearEmptiesTheBuffer := by
  refine ⟨rfl, fun w d b s hlo hhi => runRequest_of_illegal ?_ s, fun s => rfl⟩
  have hopc : w.toNat / 4096 = 0x1 := by omega
  exact .inr (.inl ⟨by simp [hopc], by dsimp only; omega⟩)

/-- Settles O11, by whether a capture is active. -/
theorem capArmStartsACapture : Obligations.CapArmStartsACapture :=
  ⟨⟨rfl, rfl⟩, fun p _ => ⟨fun ha => exec_capArm_of_inactive ha p, fun ha => exec_capArm_of_active ha p⟩⟩

/-- Settles O12, in the order of the checks; a write from index 0 on reads back and leaves the cells above alone. -/
theorem ibufLoadReplacesTheBuffer : Obligations.IbufLoadReplacesTheBuffer := by
  refine ⟨fun _ => rfl, fun bytes s => ⟨fun ha => exec_ibufLoad_of_active ha bytes, exec_ibufLoad_of_tooLong,
    fun ha hlen => ⟨_, exec_ibufLoad_of_room ha hlen, ?_, ?_, fun a hle => ?_⟩⟩⟩
  · simp [loadedWith, invalidateViews, ha]
  · exact Memory.readMany?_writeMany_self s.ibuf 0 bytes
  · exact (Memory.read?_writeMany s.ibuf 0 bytes a).trans (if_neg (by omega))

/-- With a header in the buffer the frame scan's position is the header's, and the lead is what stands before it. -/
theorem scanFrame_of_header {p : Pair} {s : List Byte} {h : Nat} (hh : find s (hdr p) 0 = some h) :
    (scanFrame p s).hpos = h ∧ (scanFrame p s).leadTail = occurs s (tailOf p) 0 h := by
  cases ht : find s (tailOf p) (h + 4) with
  | none => simp [scanFrame_noTail hh ht]
  | some t => simp [scanFrame_found hh ht]

/-- Settles O13, by what the frame scan answers with no header, with a header, and with no tail or a tail after it. -/
theorem extractFindsTheFirstFrame : Obligations.ExtractFindsTheFirstFrame := by
  refine ⟨⟨rfl, rfl⟩, fun p s ha => exec_extract_of_active ha p, fun p s bytes hbytes ha =>
    ⟨_, exec_extract_of_inactive ha hbytes p, rfl, rfl, fun hnone => ?_, fun h hfirst => ?_⟩⟩
  · have hscan := scanFrame_noHeader (find_eq_none_iff.mpr fun i _ => hnone i)
    simp only [extractedFrom, hscan, find_isSome_iff]
    simp
  · have hh := find_eq_some_iff.mpr hfirst
    obtain ⟨hhpos, hlead⟩ := scanFrame_of_header hh
    refine ⟨?_, hhpos, fun hnone => ?_, fun t hft => ?_⟩
    · simp only [extractedFrom, hlead, occurs_iff]
      simp
    · have hscan := scanFrame_noTail hh (find_eq_none_iff.mpr hnone)
      simp [extractedFrom, hscan]
    · have hscan := scanFrame_found hh (find_eq_some_iff.mpr hft)
      simp [extractedFrom, hscan]

/-! ### A received byte and a timeout (40_frame_extractor.md R105, R106) -/

/-- CAPSTAT once an active capture holds these bytes: ended at the armed pair's tail, or else by a full buffer, or
going on (40_frame_extractor.md R105). -/
def capstatHolding (bytes : List Byte) (size : Nat) (c : CapStat) : CapStat :=
  if endsWith bytes (tailOf c.pair) = true then { c with active := false, ended := .tail }
  else if bytes.length = size then { c with active := false, ended := .full }
  else c

section
variable {bytes : List Byte} {size : Nat} {c : CapStat}

theorem capstatHolding_of_tail (h : ∃ front, bytes = front ++ tailOf c.pair) :
    capstatHolding bytes size c = { c with active := false, ended := .tail } :=
  if_pos (endsWith_iff_exists_append.mpr h)

theorem capstatHolding_of_full (h : ¬ ∃ front, bytes = front ++ tailOf c.pair) (hfull : bytes.length = size) :
    capstatHolding bytes size c = { c with active := false, ended := .full } :=
  (if_neg (mt endsWith_iff_exists_append.mp h)).trans (if_pos hfull)

theorem capstatHolding_of_room (h : ¬ ∃ front, bytes = front ++ tailOf c.pair) (hroom : bytes.length ≠ size) :
    capstatHolding bytes size c = c :=
  (if_neg (mt endsWith_iff_exists_append.mp h)).trans (if_neg hroom)

end

theorem bufferHolds_received {s : State} {bytes : List Byte} (hbytes : BufferHolds s bytes) (b : Byte) :
    BufferHolds (received b s) (bytes ++ [b]) := Memory.readMany?_write_end b hbytes

/-- A byte met by an active capture with room for it. -/
theorem evRx_eq_received {s : State} {bytes : List Byte} (ha : s.capstat.active = true) (hbytes : BufferHolds s bytes)
    (hroom : s.ilen < s.params.ibufSize) (b : Byte) :
    evRx b s =
      .next { received b s with capstat := capstatHolding (bytes ++ [b]) s.params.ibufSize s.capstat } := by
  obtain ⟨u, rfl, -, hrx⟩ := evRx_of_active (b := b) ha hbytes hroom
  have hlen : (bytes ++ [b]).length = s.ilen + 1 := by simp [hbytes.length]
  rw [hrx, capstatHolding, hlen]
  split
  · rfl
  · split <;> rfl

section
variable {s : State} {b : Byte} {rest : List Event}

theorem step_rx_of_inactive (hp : s.pending = .rx b :: rest) (ha : s.capstat.active = false) :
    step s = .next { s with pending := rest, capstat := { s.capstat with rxlost := true } } :=
  (step_cons hp).trans (if_pos ha)

theorem step_rx_of_active {bytes : List Byte} (hp : s.pending = .rx b :: rest) (ha : s.capstat.active = true)
    (hbytes : BufferHolds s bytes) (hroom : s.ilen < s.params.ibufSize) :
    step s = .next { received b s with
      pending := rest
      capstat := capstatHolding (bytes ++ [b]) s.params.ibufSize s.capstat } :=
  (step_cons hp).trans (evRx_eq_received (s := { s with pending := rest }) ha hbytes hroom b)

theorem step_timeout_of_active (hp : s.pending = .timeout :: rest) (ha : s.capstat.active = true) :
    step s = .next
      { s with pending := rest, capstat := { s.capstat with active := false, ended := .timeout } } :=
  (step_cons hp).trans (if_pos ha)

theorem step_timeout_of_inactive (hp : s.pending = .timeout :: rest) (ha : s.capstat.active = false) :
    step s = .next { s with pending := rest } :=
  (step_cons hp).trans (if_neg (by simp [ha]))

end

/-- Settles O32, by whether a capture is active. -/
theorem receivedByteIsAppendedOrDropped : Obligations.ReceivedByteIsAppendedOrDropped := by
  refine ⟨fun s b rest hp ha => step_rx_of_inactive hp ha, fun s b rest bytes hp ha hbytes hroom =>
    ⟨_, step_rx_of_active hp ha hbytes hroom, rfl, bufferHolds_received hbytes b, fun a hne => ?_,
      capstatHolding_of_tail, fun hnot hfull => ?_, fun hnot hmore => ?_⟩⟩
  · exact (Memory.read?_write s.ibuf s.ilen b a).trans (if_neg hne)
  · exact capstatHolding_of_full hnot (by simpa [hbytes.length] using hfull)
  · exact capstatHolding_of_room hnot (by simpa [hbytes.length] using hmore)

theorem runSteps_succ {s t : State} (h : step s = .next t) (n : Nat) : runSteps (n + 1) s = runSteps n t := by
  simp [runSteps, h]

/-- Settles O33: the first of the two events ends the capture, and the second meets an inactive one. -/
theorem timeoutEndsAnActiveCapture : Obligations.TimeoutEndsAnActiveCapture := by
  refine ⟨fun s rest => step_timeout_of_active, fun s rest => step_timeout_of_inactive,
    fun s b rest front ha hroom hbytes hlast => ⟨fun hp => ?_, fun hp => ?_⟩⟩
  · have htail : ∃ front', front ++ (tailOf s.capstat.pair).take 3 ++ [b] = front' ++ tailOf s.capstat.pair :=
      ⟨front, by rw [List.append_assoc, ← hlast]⟩
    have hrx := step_rx_of_active hp ha hbytes hroom
    rw [capstatHolding_of_tail htail] at hrx
    exact ⟨_, (runSteps_succ hrx 1).trans (runSteps_succ (step_timeout_of_inactive rfl rfl) 0), rfl, rfl⟩
  · have htimeout := step_timeout_of_active hp ha
    exact ⟨_, (runSteps_succ htimeout 1).trans (runSteps_succ (step_rx_of_inactive rfl rfl) 0), rfl, rfl⟩

/-! ### Changes of the buffer (40_frame_extractor.md R101) -/

/-- The buffer's bytes and their number are as they were, or both views are invalid. -/
def BufferKeptOrViewsInvalid (s t : State) : Prop :=
  (t.ilen = s.ilen ∧ t.ibuf = s.ibuf) ∨ (t.extstat.state = .none ∧ t.cmdstat.res = .none)

theorem opEffect_buffer {i : Instr} {s u : State} (he : OpEffect s i u) : BufferKeptOrViewsInvalid s u := by
  cases he with
  | capClear | capArm | ibufLoad | send => exact .inr ⟨rfl, rfl⟩
  | unchanged | extract | reportCorrupt | reportValid | parseFailed | parseBody | encode | decodeStatus | accWr
  | txFlush => exact .inl ⟨rfl, rfl⟩

theorem agentEffect_buffer {e : Event} {s t : State} (he : AgentEffect s e t) : BufferKeptOrViewsInvalid s t := by
  cases he with
  | op hdecode heffect c => exact (opEffect_buffer heffect :)
  | rxAppended | rxEnded | reset => exact .inr ⟨rfl, rfl⟩
  | illegal | rdreg | rdbuf | rxLost | txIdle | tx | timeoutIdle | timeout => exact .inl ⟨rfl, rfl⟩

/-- Settles O46: an agent's step that changes the buffer invalidates the views, and waiting changes nothing. -/
theorem bufferChangesInvalidateTheViews : Obligations.BufferChangesInvalidateTheViews := by
  refine ⟨fun s t h hchanged => ?_, fun s => rfl⟩
  have hkept : BufferKeptOrViewsInvalid s t := by
    obtain ⟨-, rfl⟩ | ⟨e, rest, -, he⟩ := step_next h
    · exact .inl ⟨rfl, rfl⟩
    · exact (agentEffect_buffer (runEvent_effect he) :)
  obtain ⟨hilen, hibuf⟩ | hviews := hkept
  · simp [hilen, hibuf] at hchanged
  · exact hviews

/-! ### How a capture ends (40_frame_extractor.md R107) -/

/-- Of the operations only CAP_CLEAR makes a capture inactive. -/
theorem opEffect_ends {i : Instr} {s u : State} (he : OpEffect s i u) (ha : s.capstat.active = true)
    (hended : u.capstat.active = false) : i = .capClear := by
  have hne : ¬ s.capstat.active = false := by simp [ha]
  cases he with
  | capClear => rfl
  | capArm | send => cases hended
  | unchanged | ibufLoad | extract | reportCorrupt | reportValid | parseFailed | parseBody | encode | decodeStatus
  | accWr | txFlush => exact absurd hended hne

/-- A received byte that ends a capture completes the armed tail or fills the buffer. -/
theorem evRx_ends {b : Byte} {s t : State} (h : evRx b s = .next t) (ha : s.capstat.active = true)
    (hended : t.capstat.active = false) :
    ∃ bytes, BufferHolds t bytes ∧
      ((∃ front, bytes = front ++ tailOf s.capstat.pair) ∨ bytes.length = s.params.ibufSize) := by
  obtain ⟨hinactive, -⟩ | ⟨bytes, u, -, -, rfl, hbytes, hend⟩ := evRx_next h
  · exact absurd (ha.symm.trans hinactive) (by decide)
  · refine ⟨bytes, ?_⟩
    obtain ⟨htail, rfl⟩ | ⟨-, hfull, rfl⟩ | ⟨-, -, rfl⟩ := hend
    · exact ⟨hbytes, .inl (endsWith_iff_exists_append.mp htail)⟩
    · exact ⟨hbytes, .inr (hbytes.length.trans hfull)⟩
    · exact absurd (ha.symm.trans hended) (by decide)

/-- Settles O49: of the agents' steps only these make a capture inactive, and an active one rejects the operations. -/
theorem captureEndsOnlyInTheListedWays : Obligations.CaptureEndsOnlyInTheListedWays := by
  refine ⟨fun s t e rest hp h ha hended => ?_, fun s p a w v ha =>
    ⟨exec_extract_of_active ha p, exec_decodeStatus_of_active ha a, exec_capArm_of_active ha p,
      exec_ibufLoad_of_active ha v, exec_encode_of_active ha w v, exec_send_of_active ha w v⟩⟩
  have hne : ¬ s.capstat.active = false := by simp [ha]
  cases step_effect hp h with
  | @op q i u hdecode heffect c =>
    cases opEffect_ends heffect ha hended
    exact .inr (.inr (.inl ⟨q, rfl, hdecode⟩))
  | rxLost b | rxAppended b | rxEnded b =>
    obtain ⟨bytes, hbytes, hend⟩ := evRx_ends ((step_cons hp).symm.trans h) ha hended
    exact .inl ⟨b, bytes, rfl, hbytes, hend⟩
  | timeoutIdle | timeout => exact .inr (.inl rfl)
  | reset => exact .inr (.inr (.inr rfl))
  | illegal | rdreg | rdbuf | txIdle | tx => exact absurd hended hne

/-! ### A whole capture (40_frame_extractor.md R100, R105) -/

/-- One `rx` step for each of these bytes, all of them still to come, leaves the buffer holding exactly them, CAPSTAT
as given and the rest of the schedule. -/
def CapturesAs (s : State) (bytes : List Byte) (rest : List Event) (c : CapStat) : Prop :=
  ∃ t, runSteps bytes.length s = .next t ∧ BufferHolds t bytes ∧ t.capstat = c ∧ t.pending = rest ∧
    t.params = s.params

theorem runSteps_add {m : Nat} {s t : State} (h : runSteps m s = .next t) (n : Nat) :
    runSteps (m + n) s = runSteps n t := by
  induction m generalizing s with
  | zero => cases h; rw [Nat.zero_add]
  | succ m ih =>
    rw [Nat.succ_add]
    simp only [runSteps] at h ⊢
    cases hs : step s with
    | next u => simp only [hs] at h; exact ih h
    | fault f => simp [hs] at h
    | refused r => simp [hs] at h

/-- One byte more, while the capture is active and has room for it. -/
theorem capturesAs_concat {s : State} {bytes : List Byte} {b : Byte} {rest : List Event} {c : CapStat}
    (h : CapturesAs s bytes (.rx b :: rest) c) (ha : c.active = true) (hroom : bytes.length < s.params.ibufSize) :
    CapturesAs s (bytes ++ [b]) rest (capstatHolding (bytes ++ [b]) s.params.ibufSize c) := by
  obtain ⟨t, hrun, hbytes, rfl, hp, hparams⟩ := h
  rw [← hparams, hbytes.length] at hroom
  have hrx := step_rx_of_active hp ha hbytes hroom
  rw [hparams] at hrx
  have hlast := (runSteps_add hrun 1).trans (runSteps_succ hrx 0)
  exact ⟨_, (congrArg (runSteps · s) List.length_append).trans hlast, bufferHolds_received hbytes b, rfl, rfl, hparams⟩

section
variable {s : State} (ha : s.capstat.active = true) (hilen : s.ilen = 0)
include ha hilen

/-- A capture that meets no tail and does not fill the buffer goes on. -/
theorem capturesAs_active {bytes : List Byte} {rest : List Event} (hroom : bytes.length < s.params.ibufSize)
    (hp : s.pending = Event.rxs bytes ++ rest) (hnone : ∀ i, ¬ StandsAt bytes (tailOf s.capstat.pair) i) :
    CapturesAs s bytes rest s.capstat := by
  induction bytes using List.reverseRecOn generalizing rest with
  | nil => exact ⟨s, rfl, by rw [BufferHolds, hilen]; rfl, rfl, hp, rfl⟩
  | append_singleton bytes b ih =>
    have hshort : bytes.length < s.params.ibufSize := Nat.lt_trans (by simp) hroom
    have hbefore := ih hshort (rest := .rx b :: rest) (by simpa [Event.rxs] using hp)
      fun i hi => hnone i (standsAt_append_right hi [b])
    have hcapture := capturesAs_concat hbefore ha hshort
    rwa [capstatHolding_of_room (not_exists_append_of_not_standsAt hnone) (Nat.ne_of_lt hroom)] at hcapture

/-- The last byte of a capture that meets no tail before it. -/
theorem capturesAs_last {bytes : List Byte} {b : Byte} {rest : List Event}
    (hsize : (bytes ++ [b]).length ≤ s.params.ibufSize) (hp : s.pending = Event.rxs (bytes ++ [b]) ++ rest)
    (hnone : ∀ i, ¬ StandsAt bytes (tailOf s.capstat.pair) i) :
    CapturesAs s (bytes ++ [b]) rest (capstatHolding (bytes ++ [b]) s.params.ibufSize s.capstat) := by
  have hshort : bytes.length < s.params.ibufSize := Nat.lt_of_lt_of_le (by simp) hsize
  exact capturesAs_concat (capturesAs_active ha hilen hshort (by simpa [Event.rxs] using hp) hnone) ha hshort

end

/-- The first tail of a sequence, standing at its very end, does not stand in the sequence without its last byte. -/
theorem not_standsAt_of_firstAt_end {bytes p front : List Byte} {b : Byte} (hend : bytes ++ [b] = front ++ p)
    (hfirst : FirstAt (bytes ++ [b]) p 0 front.length) (i : Nat) : ¬ StandsAt bytes p i := by
  intro hi
  have hle := hfirst.2.2 i (Nat.zero_le i) (standsAt_append_right hi [b])
  have hlt := hi.le_length
  have hlen := congrArg List.length hend
  simp only [List.length_append, List.length_singleton] at hlen
  omega

/-- Settles O51: the bytes before the last meet no tail, so the capture goes on until the last one. -/
theorem captureStopsAtTheFirstTail : Obligations.CaptureStopsAtTheFirstTail := by
  intro s p bytes rest hcap hilen hpos hsize hp
  have ha : s.capstat.active = true := by rw [hcap]
  have hpair : s.capstat.pair = p := by rw [hcap]
  refine ⟨fun front hend hfirst => ?_, fun hnone => ?_⟩
  · obtain rfl | ⟨bytes, b, rfl⟩ := List.eq_nil_or_concat' bytes
    · simpa using congrArg List.length hend
    · have hnone := not_standsAt_of_firstAt_end hend hfirst
      obtain ⟨t, hrun, hbytes, hc, hrest, -⟩ := capturesAs_last ha hilen hsize hp (hpair ▸ hnone)
      rw [capstatHolding_of_tail ⟨front, hpair ▸ hend⟩, hcap] at hc
      exact ⟨t, hrun, hbytes, hbytes.length.symm, hc, hrest⟩
  · obtain hlt | hfull := Nat.lt_or_eq_of_le hsize
    · obtain ⟨t, hrun, hbytes, hc, hrest, -⟩ := capturesAs_active ha hilen hlt hp (hpair ▸ hnone)
      exact ⟨t, hrun, hbytes, hbytes.length.symm, hrest, fun _ => hc.trans hcap, fun h => absurd h (Nat.ne_of_lt hlt)⟩
    · obtain rfl | ⟨bytes, b, rfl⟩ := List.eq_nil_or_concat' bytes
      · exact absurd hfull (Nat.ne_of_lt hpos)
      · have hbefore : ∀ i, ¬ StandsAt bytes (tailOf p) i := fun i hi => hnone i (standsAt_append_right hi [b])
        obtain ⟨t, hrun, hbytes, hc, hrest, -⟩ := capturesAs_last ha hilen hsize hp (hpair ▸ hbefore)
        rw [capstatHolding_of_full (hpair ▸ not_exists_append_of_not_standsAt hnone) hfull, hcap] at hc
        exact ⟨t, hrun, hbytes, hbytes.length.symm, hrest, fun h => absurd hfull (Nat.ne_of_lt h), fun _ => hc⟩

end Sys2Proof.Proofs.FrameExtractor

/-! PROOFS for the family of 41_report_decoder.md: the sign-magnitude magnitudes (R140, R141, R146), the target states
(R142), DECODE_REPORT (R143, R144), and a report frame from the wire to the report registers (R145). -/

namespace Sys2Proof.Proofs.ReportDecoder

open Sys2Proof.Machine Sys2Proof.Proofs.FrameExtractor

/-! ### The sign-magnitude algorithm (41_report_decoder.md R140, R141, R146) -/

theorem smag16_of_nonneg {u : Word} (h : 0 ≤ s16 u) : smag16 u = BitVec.ofNat 15 (s16 u).natAbs := if_pos h

theorem smag16_of_neg {u : Word} (h : s16 u < 0) : smag16 u = BitVec.ofNat 15 (-32768 - s16 u).natAbs :=
  if_neg (Int.not_le.mpr h)

/-- Below 0x8000 the signed reading is the pattern itself; from there on it is negative, and -32768 minus it is the
pattern without its sign bit, but for the minus sign. -/
theorem smag16_toNat (u : Word) : (smag16 u).toNat = u.toNat % 2 ^ 15 := by
  have hu := u.isLt
  by_cases hsign : u.toNat < 32768
  · have hs : s16 u = u.toNat := if_pos hsign
    rw [smag16_of_nonneg (by omega), BitVec.toNat_ofNat, hs, Int.natAbs_natCast]
  · have hs : s16 u = (u.toNat : Int) - 65536 := if_neg hsign
    rw [smag16_of_neg (by omega), BitVec.toNat_ofNat, hs]
    omega

theorem smag16_eq_setWidth (u : Word) : smag16 u = u.setWidth 15 :=
  BitVec.eq_of_toNat_eq ((smag16_toNat u).trans (BitVec.toNat_setWidth ..).symm)

/-- Settles O22: the magnitude is the pattern cut to 15 bits, which leaves out the sign bit. -/
theorem signMagnitudeIsTheLowFifteenBits : Obligations.SignMagnitudeIsTheLowFifteenBits := by
  refine fun u => ⟨?_, ?_⟩
  · have hmask : u.toNat &&& 0x7FFF = u.toNat % 2 ^ 15 := Nat.and_two_pow_sub_one_eq_mod u.toNat 15
    apply BitVec.eq_of_toNat_eq
    rw [BitVec.toNat_setWidth_of_le (by decide), smag16_toNat]
    exact hmask.symm
  · have hsign : (0x8000#16).setWidth 15 = 0#15 := rfl
    rw [smag16_eq_setWidth, BitVec.setWidth_xor, hsign, BitVec.xor_zero, smag16_eq_setWidth]

/-- The magnitude of a little-endian field, from its two bytes. -/
theorem smag16_le16 (b0 b1 : Byte) :
    smag16 (le16 b0 b1) = BitVec.ofNat 15 ((b0.toNat + 256 * b1.toNat) % 32768) := by
  rw [smag16_eq_setWidth, BitVec.toNat_eq, BitVec.toNat_setWidth, Scope.le16_toNat, BitVec.toNat_ofNat, Nat.mod_mod]

/-! ### The target states (41_report_decoder.md R142, 30_encoding.md R86) -/

theorem tstateOf_of_four_le {b : Byte} (h : 4 ≤ b.toNat) : tstateOf b = .unknown := by
  unfold tstateOf
  split
  case h_5 => rfl
  all_goals omega

theorem tstateCode_tstateOf_toNat (b : Byte) : (tstateCode (tstateOf b)).toNat = min b.toNat 4 := by
  obtain hnamed | hunknown := Nat.lt_or_ge b.toNat 4
  · rw [tstateOf]
    interval_cases b.toNat <;> rfl
  · rw [tstateOf_of_four_le hunknown, Nat.min_eq_right hunknown]
    rfl

/-- Settles O23, by whether the state byte is one of the four named ones. -/
theorem targetStateMapIsTotal : Obligations.TargetStateMapIsTotal :=
  ⟨rfl, rfl, rfl, rfl, fun b => ⟨tstateOf_of_four_le, tstateCode_tstateOf_toNat b⟩⟩

/-! ### What DECODE_REPORT answers (41_report_decoder.md R143, R144) -/

section
variable {s : State}

theorem exec_decodeReport_of_none (h : s.extstat.state = .none) :
    exec .decodeReport s = .next { s with operr := .notReady } := if_pos h

theorem exec_decodeReport_of_noFrame (h : s.extstat.state = .noHeader ∨ s.extstat.state = .noTail) :
    exec .decodeReport s = .next { reportCorrupt .noFrame s with operr := .ok } := by
  obtain h | h := h <;> exact (if_neg (by simp [h])).trans (if_pos (by simp [h]))

section
variable (hfound : s.extstat.state = .found)
include hfound

theorem exec_decodeReport_of_wrongPair (hpair : s.extstat.pair = .command) :
    exec .decodeReport s = .next { reportCorrupt .wrongPair s with operr := .ok } :=
  (if_neg (by simp [hfound])).trans <| (if_neg (by simp [hfound])).trans <| if_pos (by simp [hpair])

theorem exec_decodeReport_of_badLength (hpair : s.extstat.pair = .report) (hlen : s.extLen ≠ 15) :
    exec .decodeReport s = .next { reportCorrupt .badLength s with operr := .ok } :=
  (if_neg (by simp [hfound])).trans <| (if_neg (by simp [hfound])).trans <| (if_neg (by simp [hpair])).trans <|
    if_pos hlen

theorem exec_decodeReport_of_payload (hpair : s.extstat.pair = .report) (hlen : s.extLen = 15) {P : List Byte}
    (hP : memRead (s.extStart + 4) 9 s = .ok P) :
    exec .decodeReport s = .next { reportValid P s with operr := .ok } := by
  rw [exec, execDecodeReport, if_neg (by simp [hfound]), if_neg (by simp [hfound]), if_neg (by simp [hpair]),
    if_neg (by simp [hlen]), hP]
  rfl

end

/-- The report registers after a VALID result, field by field (41_report_decoder.md R143). -/
theorem reportValid_payload (p0 p1 p2 p3 p4 p5 p6 p7 p8 : Byte) :
    reportValid [p0, p1, p2, p3, p4, p5, p6, p7, p8] s = { s with
      repRawState := p0
      repMdist := BitVec.ofNat 15 ((p1.toNat + 256 * p2.toNat) % 32768)
      repMenergy := p3
      repSdist := BitVec.ofNat 15 ((p4.toNat + 256 * p5.toNat) % 32768)
      repSenergy := p6
      repDist := BitVec.ofNat 15 ((p7.toNat + 256 * p8.toNat) % 32768)
      repstat := { res := .valid, tstate := tstateOf p0, creason := .none } } := by
  rw [← smag16_le16 p1, ← smag16_le16 p4, ← smag16_le16 p7]
  rfl

end

/-- Settles O14, in the order of the checks. -/
theorem decodeReportDeliversTheTargetReport : Obligations.DecodeReportDeliversTheTargetReport := by
  refine ⟨rfl, fun s => exec_decodeReport_of_none, fun s => exec_decodeReport_of_noFrame,
    fun s => exec_decodeReport_of_wrongPair, fun s => exec_decodeReport_of_badLength, ?_⟩
  intro s p0 p1 p2 p3 p4 p5 p6 p7 p8 hfound hpair hlen hbounds hread
  have hP := memRead_ok.mpr ⟨by omega, hread⟩
  rw [exec_decodeReport_of_payload hfound hpair hlen hP, reportValid_payload]

/-! ### A report frame from the wire to the registers (30_encoding.md R79; 41_report_decoder.md R143, R145) -/

theorem reportFrame_length (pre payload trailing : List Byte) :
    (reportFrame pre payload trailing).length = 8 + pre.length + payload.length + trailing.length := by
  simp [reportFrame]
  omega

/-- A report frame begins with its header. -/
theorem firstAt_hdr_reportFrame (pre payload trailing : List Byte) :
    FirstAt (reportFrame pre payload trailing) (hdr .report) 0 0 := by
  refine ⟨Nat.le_refl 0, ⟨?_, ?_⟩, fun j hj _ => hj⟩
  · rw [reportFrame_length, hdr_length]
    omega
  · simp [reportFrame]

/-- The target payload stands between the 4-byte prefix and the trailing bytes, whatever these hold. -/
theorem slice_reportFrame {pre payload : List Byte} (hpre : pre.length = 4) (hpayload : payload.length = 9)
    (trailing : List Byte) : slice (reportFrame pre payload trailing) 8 17 = payload := by
  have hfront : (hdr .report ++ pre).length = 8 := by simp [hpre]
  rw [slice, reportFrame, List.append_assoc, List.append_assoc, List.drop_left' hfront, List.take_left' hpayload]

/-- Settles O52: IBUF_LOAD puts the frame into the buffer (O12), EXTRACT finds the body between the header at 0 and the
tail at 19 (O13), and the 9 bytes DECODE_REPORT reads there (O14) are the frame's target payload. -/
theorem reportFrameDecodesToItsFields : Obligations.ReportFrameDecodesToItsFields := by
  intro s pre trailing p0 p1 p2 p3 p4 p5 p6 p7 p8 f hf hpre htrailing ha hsize htail
  have hlength : f.length = 23 := by simp [hf, reportFrame_length, hpre, htrailing]
  have hhdr : FirstAt f (hdr .report) 0 0 := hf ▸ firstAt_hdr_reportFrame ..
  have hpayload : slice f 8 17 = [p0, p1, p2, p3, p4, p5, p6, p7, p8] := hf ▸ slice_reportFrame hpre rfl trailing
  obtain ⟨-, hload⟩ := ibufLoadReplacesTheBuffer
  obtain ⟨-, -, hextract⟩ := extractFindsTheFirstFrame
  obtain ⟨-, -, -, -, -, hdecode⟩ := decodeReportDeliversTheTargetReport
  obtain ⟨-, -, hroom⟩ := hload f s
  obtain ⟨t1, h1, ht1, hbytes1, -⟩ := hroom ha (hlength ▸ hsize)
  obtain ⟨t2, h2, ht2, hpair, -, hheader⟩ := hextract .report t1 f hbytes1 (by rw [ht1])
  obtain ⟨-, hhpos, -, hbody⟩ := hheader 0 hhdr
  obtain ⟨hfound, hstart, hlen⟩ := hbody 19 htail
  have hbytes2 : BufferHolds t2 f := by rw [ht2]; exact hbytes1
  have hilen : t2.ilen = 23 := hbytes2.length.symm.trans hlength
  obtain ⟨-, hread⟩ := memRead_ok.mp (hbytes2.memRead (i := 8) (n := 9) (by omega))
  rw [hpayload] at hread
  have h3 := hdecode t2 p0 p1 p2 p3 p4 p5 p6 p7 p8 hfound hpair hlen (by omega) (by rw [hstart]; exact hread)
  have hok : t2.operr = .ok := congrArg State.operr ht2
  exact ⟨hlength, t1, t2, _, h1, h2, h3, hfound, hhpos, hstart, hlen, by rw [hok]⟩

end Sys2Proof.Proofs.ReportDecoder

/-! PROOFS for the family of 42_command_codec.md: the command frame (R170, R171), ENCODE, SEND and TX_FLUSH (R172, R173,
R175), the bytes leaving the output queue (R174), CMD_PARSE (R176), the accepted sets and DECODE_STATUS (R177–R179),
ACC_WR (R180), one exchange at a time (R181), and a command frame from the wire to the command registers (R182). -/

namespace Sys2Proof.Proofs.CommandCodec

open Sys2Proof.Machine Sys2Proof.Proofs.Scope Sys2Proof.Proofs.BlockState Sys2Proof.Proofs.Encoding
open Sys2Proof.Proofs.FrameExtractor

/-! ### The command frame (42_command_codec.md R170, R171) -/

/-- The body of a command frame: length field, command word and value (42_command_codec.md R170). -/
def commandBody (w : Word) (v : List Byte) : List Byte :=
  le16bytes (BitVec.ofNat 16 (2 + v.length)) ++ le16bytes w ++ v

theorem cmdframe_eq_delimited_body (w : Word) (v : List Byte) :
    cmdframe w v = hdr .command ++ commandBody w v ++ tailOf .command := by
  simp only [cmdframe, commandBody, List.append_assoc]

theorem commandBody_length (w : Word) (v : List Byte) : (commandBody w v).length = 4 + v.length := by
  simp [commandBody, le16bytes]
  omega

theorem le16bytes_eq_ofNat (u : Word) :
    le16bytes u = [BitVec.ofNat 8 (u.toNat % 256), BitVec.ofNat 8 (u.toNat / 256)] := by
  rw [le16bytes, lo8_eq_ofNat, hi8_eq_ofNat]

/-- The length field holds the declared length when 16 bits do (42_command_codec.md R171). -/
theorem lengthField_toNat {n : Nat} (h : n ≤ 65533) : (BitVec.ofNat 16 (2 + n)).toNat = 2 + n :=
  Nat.mod_eq_of_lt (by omega)

/-- Settles O25, from the two bytes of each 16-bit field and the number the length field holds. -/
theorem commandFrameLayout : Obligations.CommandFrameLayout := by
  refine fun w v hv => ⟨?_, cmdframe_length w v, fun p _ hfits => ⟨lengthField_toNat hv, by omega, by omega⟩⟩
  rw [cmdframe, le16bytes_eq_ofNat, le16bytes_eq_ofNat, lengthField_toNat hv]
  rfl

theorem firstAt_append (p r : List Byte) : FirstAt (p ++ r) p 0 0 :=
  ⟨Nat.le_refl 0, ⟨by simp, by simp⟩, fun _ hj _ => hj⟩

/-- A command frame begins with its header. -/
theorem firstAt_hdr_cmdframe (w : Word) (v : List Byte) : FirstAt (cmdframe w v) (hdr .command) 0 0 := by
  rw [cmdframe_eq_delimited_body, List.append_assoc]
  exact firstAt_append _ _

/-- A command frame ends with its tail. -/
theorem standsAt_tail_cmdframe (w : Word) (v : List Byte) :
    StandsAt (cmdframe w v) (tailOf .command) (8 + v.length) := by
  have hend : endsWith (cmdframe w v) (tailOf .command) = true :=
    endsWith_iff_exists_append.mpr ⟨_, cmdframe_eq_delimited_body w v⟩
  have hstands := (endsWith_iff.mp hend).2
  rwa [cmdframe_length, tailOf_length, show 12 + v.length - 4 = 8 + v.length by omega] at hstands

/-- With no tail inside the body, the real tail is the first: two tails never overlap (42_command_codec.md R182). -/
theorem firstAt_tail_cmdframe {w : Word} {v : List Byte}
    (hbody : ∀ i, 4 ≤ i → i + 4 ≤ 8 + v.length → ¬ StandsAt (cmdframe w v) (tailOf .command) i) :
    FirstAt (cmdframe w v) (tailOf .command) 4 (8 + v.length) := by
  have hreal := standsAt_tail_cmdframe w v
  refine ⟨by omega, hreal, fun j hj hstands => ?_⟩
  by_contra hlt
  have hapart := add_four_le_of_standsAt (tailOf_nodup _) (tailOf_length _) (Nat.lt_of_not_le hlt) hstands hreal
  exact hbody j hj hapart hstands

theorem slice_body_cmdframe (w : Word) (v : List Byte) :
    slice (cmdframe w v) 4 (4 + (4 + v.length)) = commandBody w v := by
  rw [slice, cmdframe_eq_delimited_body, List.append_assoc, List.drop_left' (hdr_length _),
    List.take_left' (by rw [commandBody_length]; omega)]

theorem slice_value_cmdframe (w : Word) (v : List Byte) : slice (cmdframe w v) 8 (8 + v.length) = v := by
  have hfront : (hdr .command ++ le16bytes (BitVec.ofNat 16 (2 + v.length)) ++ le16bytes w).length = 8 := rfl
  rw [slice, cmdframe, List.append_assoc, List.drop_left' hfront, List.take_left' (by omega)]

/-! ### ENCODE, SEND and TX_FLUSH (42_command_codec.md R172, R173, R175) -/

/-- ENCODE and SEND are BUSY while OBUF holds bytes or a capture is active. -/
theorem withFreePort_of_busy {s : State} (h : s.obuf ≠ [] ∨ s.capstat.active = true) (v : List Byte) (go : Result) :
    withFreePort v s go = .next { s with operr := .busy } :=
  if_pos (h.imp_left List.length_pos_of_ne_nil)

/-- On a free port, a value beyond VMAX is TOO_LONG. -/
theorem withFreePort_of_tooLong {s : State} {v : List Byte} (hobuf : s.obuf = []) (hactive : s.capstat.active = false)
    (hlen : s.params.vmax < v.length) (go : Result) : withFreePort v s go = .next { s with operr := .tooLong } :=
  (if_neg (by simp [State.obufCount, hobuf, hactive])).trans (if_pos hlen)

/-- Settles O16, in the order of the checks; on an empty OBUF the frame is all that is queued. -/
theorem encodeQueuesTheCommandFrame : Obligations.EncodeQueuesTheCommandFrame := by
  refine ⟨fun _ _ => rfl, fun w v s => ⟨fun hbusy => withFreePort_of_busy hbusy v _,
    fun hobuf hactive hlen => withFreePort_of_tooLong hobuf hactive hlen _,
    fun hobuf hactive hlen => ⟨?_, cmdframe_length w v⟩⟩⟩
  rw [exec_encode_of_free hobuf hactive hlen, obufPush, hobuf, List.nil_append]

/-- Settles O17, in the order of the checks of ENCODE; the frame is queued before the capture is armed. -/
theorem sendQueuesAndArms : Obligations.SendQueuesAndArms := by
  refine ⟨fun _ _ => rfl, fun w v s => ⟨fun hbusy => withFreePort_of_busy hbusy v _,
    fun hobuf hactive hlen => withFreePort_of_tooLong hobuf hactive hlen _,
    fun hobuf hactive hlen => ⟨?_, cmdframe_length w v⟩⟩⟩
  rw [exec_send_of_free hobuf hactive hlen, obufPush, hobuf, List.nil_append]
  rfl

/-- Settles O18: TX_FLUSH meets no condition, and the op words after 0xB000 have a reserved bit set. -/
theorem txFlushDiscardsTheQueue : Obligations.TxFlushDiscardsTheQueue := by
  refine ⟨fun s => rfl, rfl, fun w d b s hlo hhi => runRequest_of_illegal ?_ s⟩
  have hopc : w.toNat / 4096 = 0xB := by omega
  exact .inr (.inl ⟨by simp [hopc], by dsimp only; omega⟩)

/-! ### ACC_WR and the accepted sets (42_command_codec.md R177, R178, R180; 10_state.md R35) -/

/-- Settles O20: a write at an index of the list is read back there and seen nowhere else. -/
theorem accWrWritesOneEntry : Obligations.AccWrWritesOneEntry := by
  refine ⟨opWord_accWr_toNat, fun w d b s hlo hhi => runRequest_of_illegal ?_ s,
    fun idx valid code s => ⟨fun hbad => if_pos hbad, fun hidx hlen =>
      ⟨_, exec_accWr_of_lt hidx valid code, rfl, List.length_set, ?_, fun i hne => ?_⟩⟩⟩
  · exact .inr (.inr (.inr (.inr ⟨by dsimp only; omega, by dsimp only; omega⟩)))
  · exact List.getElem?_set_self (hlen ▸ hidx)
  · exact List.getElem?_set_ne hne.symm

/-- The USER set holds the codes of the valid entries below NACC. -/
theorem mem_acceptUser_iff {c : Word} {nacc : Nat} {acc : List AccEntry} :
    c ∈ acceptUser nacc acc ↔ ∃ i, i < nacc ∧ ∃ e, acc[i]? = some e ∧ e.valid = true ∧ e.code = c := by
  simp only [acceptUser, List.mem_map, List.mem_filter]
  constructor
  · rintro ⟨e, ⟨hmem, hvalid⟩, hcode⟩
    obtain ⟨i, hi⟩ := List.mem_iff_getElem?.mp hmem
    obtain ⟨hlt, he⟩ := Option.ite_none_right_eq_some.mp (List.getElem?_take.symm.trans hi)
    exact ⟨i, hlt, e, he, hvalid, hcode⟩
  · rintro ⟨i, hlt, e, he, hvalid, hcode⟩
    have hmem := List.mem_of_getElem? ((List.getElem?_take_of_lt hlt).trans he)
    exact ⟨e, ⟨hmem, hvalid⟩, hcode⟩

/-- Settles O26: a word is in a listed set iff its number is one of the listed numbers. -/
theorem acceptedSetsAreExact : Obligations.AcceptedSetsAreExact := by
  refine fun c s => ⟨?_, ?_, mem_acceptUser_iff⟩
  · simp [accset, acceptDefault, BitVec.toNat_eq]
  · simp [accset, acceptEnterConfig, BitVec.toNat_eq]

/-! ### DECODE_STATUS (42_command_codec.md R179) -/

theorem le16_eq_ofNat (b0 b1 : Byte) : le16 b0 b1 = BitVec.ofNat 16 (b0.toNat + 256 * b1.toNat) := by
  rw [← le16_toNat, BitVec.ofNat_toNat, BitVec.setWidth_eq]

section
variable {s : State} (hactive : s.capstat.active = false) (a : AccSel)
include hactive

theorem exec_decodeStatus_of_timeout (hended : s.capstat.ended = .timeout) :
    exec (.decodeStatus a) s = .next { statusResult a .timeout 0#16 s with operr := .ok } :=
  (if_neg (by simp [hactive])).trans (if_pos hended)

theorem exec_decodeStatus_of_full (hended : s.capstat.ended = .full) :
    exec (.decodeStatus a) s = .next { statusResult a .overflow 0#16 s with operr := .ok } :=
  (if_neg (by simp [hactive])).trans <| (if_neg (by simp [hended])).trans (if_pos hended)

variable (htimeout : s.capstat.ended ≠ .timeout) (hfull : s.capstat.ended ≠ .full)
include htimeout hfull

theorem exec_decodeStatus_of_short (hlen : s.ilen < 10) :
    exec (.decodeStatus a) s = .next { statusResult a .truncated 0#16 s with operr := .ok } :=
  (if_neg (by simp [hactive])).trans <| (if_neg htimeout).trans <| (if_neg hfull).trans (if_pos hlen)

/-- The code is read from offsets 8 and 9 and judged against the accepted set. -/
theorem exec_decodeStatus_of_code {b8 b9 : Byte} (hlen : 10 ≤ s.ilen) (h8 : s.ibuf.read? 8 = some b8)
    (h9 : s.ibuf.read? 9 = some b9) :
    exec (.decodeStatus a) s = .next
      { statusResult a (if le16 b8 b9 ∈ accset a s then .success else .failure) (le16 b8 b9) s with operr := .ok } := by
  have hread : memRead 8 2 s = .ok [b8, b9] := memRead_ok.mpr ⟨hlen, by simp [Memory.readMany?, h8, h9]⟩
  rw [exec, execDecodeStatus, if_neg (by simp [hactive]), if_neg htimeout, if_neg hfull, if_neg (by omega), hread]
  rfl

end

/-- Settles O19, in the order of the checks. -/
theorem decodeStatusJudgesTheResponse : Obligations.DecodeStatusJudgesTheResponse := by
  have hasel : IllegalOpWord 0x9003#16 := by decide
  refine ⟨⟨rfl, rfl, rfl⟩, fun d b s => runRequest_of_illegal (q := ⟨_, d, b⟩) hasel s, fun a s =>
    ⟨fun ha => exec_decodeStatus_of_active ha a, fun ha => exec_decodeStatus_of_timeout ha a,
      fun ha => exec_decodeStatus_of_full ha a, exec_decodeStatus_of_short (a := a), ?_⟩⟩
  intro b8 b9 ha htimeout hfull hlen h8 h9
  refine ⟨_, _, exec_decodeStatus_of_code ha a htimeout hfull hlen h8 h9, le16_eq_ofNat b8 b9, ?_⟩
  by_cases hc : le16 b8 b9 ∈ accset a s
  · exact .inl ⟨hc, if_pos hc⟩
  · exact .inr ⟨hc, if_neg hc⟩

/-! ### The output queue (42_command_codec.md R174, R181; 20_memory.md R51) -/

theorem step_tx_of_cons {s : State} {b : Byte} {q : List Byte} {rest : List Event} (hp : s.pending = .tx :: rest)
    (hobuf : s.obuf = b :: q) :
    step s = .next { s with pending := rest, obuf := q, txStream := s.txStream ++ [b] } := by
  rw [step_cons hp]
  simp [runEvent, evTx, hobuf, emit]

/-- n `tx` steps take the oldest n bytes, by induction on n: the first takes the head of the queue. -/
theorem runSteps_txs {n : Nat} {s : State} {rest : List Event} (hp : s.pending = Event.txs n ++ rest)
    (hn : n ≤ s.obuf.length) :
    runSteps n s = .next
      { s with pending := rest, obuf := s.obuf.drop n, txStream := s.txStream ++ s.obuf.take n } := by
  induction n generalizing s with
  | zero =>
    have hrest : s.pending = rest := hp
    simp [runSteps, ← hrest]
  | succ n ih =>
    obtain ⟨b, q, hobuf⟩ := List.exists_cons_of_length_pos (Nat.lt_of_lt_of_le (Nat.succ_pos n) hn)
    have hstep := step_tx_of_cons (rest := Event.txs n ++ rest) hp hobuf
    have hlen : n ≤ q.length := by simpa [hobuf] using hn
    rw [runSteps_succ hstep, ih rfl hlen]
    simp [hobuf]

/-- Settles O34, from one `tx` step and the run of n of them. -/
theorem queuedBytesLeaveInOrder : Obligations.QueuedBytesLeaveInOrder :=
  ⟨fun _ _ _ _ => step_tx_of_cons, fun _ _ _ => runSteps_txs⟩

/-- ENCODE and SEND queue on an empty OBUF only; of the other operations only TX_FLUSH touches it. -/
theorem opEffect_obuf {i : Instr} {s u : State} (he : OpEffect s i u) (hne : s.obuf ≠ []) :
    ∃ n, u.obuf = s.obuf.drop n := by
  cases he with
  | encode w v hempty | send w v hempty => exact absurd hempty hne
  | txFlush => exact ⟨s.obuf.length, List.drop_length.symm⟩
  | unchanged | capClear | capArm | ibufLoad | extract | reportCorrupt | reportValid | parseFailed | parseBody
  | decodeStatus | accWr => exact ⟨0, rfl⟩

/-- No agent's step adds to an OBUF that holds a byte. -/
theorem agentEffect_obuf {e : Event} {s t : State} (he : AgentEffect s e t) (hne : s.obuf ≠ []) :
    ∃ n, t.obuf = s.obuf.drop n := by
  cases he with
  | op hdecode heffect c => exact (opEffect_obuf heffect hne :)
  | tx b rest hobuf => exact ⟨1, by simp [hobuf]⟩
  | reset => exact ⟨s.obuf.length, List.drop_length.symm⟩
  | illegal | rdreg | rdbuf | rxLost | rxAppended | rxEnded | txIdle | timeoutIdle | timeout => exact ⟨0, rfl⟩

/-- Settles O50: a SEND that raises no error has armed its capture, an active capture makes the port busy, and no
agent's step adds to a queue that holds a byte. -/
theorem oneCommandExchangeAtATime : Obligations.OneCommandExchangeAtATime := by
  refine ⟨fun s t w v h hok => ?_, fun s w v p ha => ⟨exec_send_of_active ha w v, exec_encode_of_active ha w v,
    exec_capArm_of_active ha p, exec_ibufLoad_of_active ha v⟩, fun s t h hne => ?_⟩
  · obtain ⟨-, rfl⟩ | ⟨-, -, -, rfl⟩ | ⟨-, -, -, rfl⟩ := execSend_next h
    · cases hok
    · cases hok
    · rfl
  · obtain ⟨-, rfl⟩ | ⟨e, rest, -, he⟩ := step_next h
    · exact ⟨0, rfl⟩
    · exact (agentEffect_obuf (runEvent_effect he) hne :)

/-! ### CMD_PARSE (42_command_codec.md R176) -/

section
variable {s : State}

theorem exec_cmdParse_of_none (h : s.extstat.state = .none) :
    exec .cmdParse s = .next { s with operr := .notReady } := if_pos h

theorem exec_cmdParse_of_noFrame
    (h : s.extstat.state = .noHeader ∨ s.extstat.state = .noTail ∨
      (s.extstat.state = .found ∧ s.extstat.pair = .report)) :
    exec .cmdParse s = .next { parseFailed .noFrame s with operr := .ok } := by
  obtain h | h | ⟨h, hpair⟩ := h
  · exact (if_neg (by simp [h])).trans (if_pos (.inl (by simp [h])))
  · exact (if_neg (by simp [h])).trans (if_pos (.inl (by simp [h])))
  · exact (if_neg (by simp [h])).trans (if_pos (.inr (by simp [hpair])))

section
variable (hfound : s.extstat.state = .found) (hpair : s.extstat.pair = .command)
include hfound hpair

theorem exec_cmdParse_of_short (hlen : s.extLen < 4) :
    exec .cmdParse s = .next { parseFailed .short s with operr := .ok } :=
  (if_neg (by simp [hfound])).trans <| (if_neg (by simp [hfound, hpair])).trans (if_pos hlen)

theorem exec_cmdParse_of_body {B : List Byte} (hlen : 4 ≤ s.extLen) (hB : memRead s.extStart s.extLen s = .ok B) :
    exec .cmdParse s = .next { parseBody B s with operr := .ok } := by
  rw [exec, execCmdParse, if_neg (by simp [hfound]), if_neg (by simp [hfound, hpair]), if_neg (by omega), hB]
  rfl

end

/-- The command registers after a parse of these bytes, field by field. -/
theorem parseBody_cons (b0 b1 b2 b3 : Byte) {value : List Byte} (hlen : s.extLen = 4 + value.length) :
    parseBody (b0 :: b1 :: b2 :: b3 :: value) s = { s with
      cmdLenf := le16 b0 b1
      cmdWord := le16 b2 b3
      cmdVstart := s.extStart + 4
      cmdVlen := value.length
      cmdstat := { res := .ok, lenMismatch := decide ((le16 b0 b1).toNat ≠ 2 + value.length) } } := by
  have hvlen : s.extLen - 4 = value.length := by omega
  have hdeclared : s.extLen - 2 = 2 + value.length := by omega
  rw [parseBody, hvlen, hdeclared]
  rfl

/-- The command registers after a parse of the body of a command frame (42_command_codec.md R182). -/
theorem parseBody_commandBody (w : Word) {v : List Byte} (hlen : s.extLen = 4 + v.length) (hfits : v.length ≤ 65533) :
    parseBody (commandBody w v) s = { s with
      cmdLenf := BitVec.ofNat 16 (2 + v.length)
      cmdWord := w
      cmdVstart := s.extStart + 4
      cmdVlen := v.length
      cmdstat := { res := .ok, lenMismatch := false } } := by
  have hparse := parseBody_cons (lo8 (BitVec.ofNat 16 (2 + v.length))) (hi8 (BitVec.ofNat 16 (2 + v.length)))
    (lo8 w) (hi8 w) hlen
  rw [le16_lo8_hi8, le16_lo8_hi8, lengthField_toNat hfits, decide_eq_false (not_not.mpr rfl)] at hparse
  exact hparse

end

/-- Settles O15, in the order of the checks. -/
theorem cmdParseSplitsTheCommandBody : Obligations.CmdParseSplitsTheCommandBody := by
  refine ⟨rfl, fun s => exec_cmdParse_of_none, fun s => exec_cmdParse_of_noFrame, fun s => exec_cmdParse_of_short,
    fun s b0 b1 b2 b3 value hfound hpair hlen hbounds hread => ?_⟩
  have hB := memRead_ok.mpr ⟨hbounds, hread⟩
  rw [exec_cmdParse_of_body hfound hpair (by omega) hB, parseBody_cons b0 b1 b2 b3 hlen, le16_toNat, le16_eq_ofNat,
    le16_eq_ofNat]

/-! ### A command frame from the wire to the command registers (42_command_codec.md R182; 40_frame_extractor.md R111) -/

/-- A sequence that begins with a header, loaded and extracted: the body ends at the first tail after the header. -/
theorem load_extract_found {p : Pair} {s : State} {f : List Byte} {i : Nat} (hactive : s.capstat.active = false)
    (hsize : f.length ≤ s.params.ibufSize) (hhdr : FirstAt f (hdr p) 0 0) (htail : FirstAt f (tailOf p) 4 i) :
    ∃ t1 t2, exec (.ibufLoad f) s = .next t1 ∧ exec (.extract p) t1 = .next t2 ∧ BufferHolds t2 f ∧
      t2.extstat.state = .found ∧ t2.extstat.pair = p ∧ t2.extHpos = 0 ∧ t2.extStart = 4 ∧ t2.extLen = i - 4 := by
  have hscan := scanFrame_found (find_eq_some_iff.mpr hhdr) (find_eq_some_iff.mpr htail)
  have hbytes : BufferHolds { loadedWith f s with operr := .ok } f := Memory.readMany?_writeMany_self s.ibuf 0 f
  have hextract := exec_extract_of_inactive (s := { loadedWith f s with operr := .ok }) hactive hbytes p
  refine ⟨_, _, exec_ibufLoad_of_room hactive hsize, hextract, hbytes, ?_⟩
  simp [extractedFrom, hscan]

/-- Settles O53: EXTRACT ends the body at the first tail after the header, which is the real one when none stands
inside the body; CMD_PARSE then reads the fields of the body that was encoded. -/
theorem encodedCommandRoundTrips : Obligations.EncodedCommandRoundTrips := by
  rintro s w v f rfl ⟨-, ⟨-, hvmax⟩, -⟩ hactive hfits hroom
  have hsize : (cmdframe w v).length ≤ s.params.ibufSize := by rwa [cmdframe_length]
  refine ⟨fun hnone => ?_, fun i hfirst hinside => ?_⟩
  · obtain ⟨t1, t2, h1, h2, hbytes, hfound, hpair, hhpos, hstart, hlen⟩ :=
      load_extract_found hactive hsize (firstAt_hdr_cmdframe w v) (firstAt_tail_cmdframe hnone)
    have hextLen : t2.extLen = 4 + v.length := by omega
    have hilen : t2.ilen = 12 + v.length := hbytes.length.symm.trans (cmdframe_length w v)
    have hbody := hbytes.memRead (i := 4) (n := 4 + v.length) (by omega)
    have hvalue := hbytes.memRead (i := 8) (n := v.length) (by omega)
    rw [slice_body_cmdframe] at hbody
    rw [slice_value_cmdframe] at hvalue
    have h3 := exec_cmdParse_of_body hfound hpair (by omega) (by rwa [hstart, hextLen])
    rw [parseBody_commandBody w hextLen (by omega)] at h3
    exact ⟨t1, t2, _, h1, h2, h3, rfl, hfound, hhpos, hstart, hextLen, (memRead_ok.mp hbody).2, rfl,
      lengthField_toNat (by omega), rfl, congrArg (· + 4) hstart, rfl, (memRead_ok.mp hvalue).2⟩
  · obtain ⟨t1, t2, h1, h2, -, hfound, -, hhpos, hstart, hlen⟩ :=
      load_extract_found hactive hsize (firstAt_hdr_cmdframe w v) hfirst
    exact ⟨t1, t2, h1, h2, hfound, hhpos, hstart, hlen, by omega⟩

end Sys2Proof.Proofs.CommandCodec

/-! PROOFS for the family of 43_control.md: NOP (R220), the register reads (R221) and the IBUF reads (R222). -/

namespace Sys2Proof.Proofs.Control

open Sys2Proof.Machine Sys2Proof.Proofs.Scope Sys2Proof.Proofs.BlockState Sys2Proof.Proofs.FrameExtractor

/-! ### IBUF reads (43_control.md R222) -/

theorem rdbuf_of_getElem? {s : State} {i : Word} {bytes : List Byte} {b : Byte} (hbytes : BufferHolds s bytes)
    (hb : bytes[i.toNat]? = some b) : rdbuf i s = .ok b := by
  obtain ⟨hlen, -⟩ := List.getElem?_eq_some_iff.mp hb
  have hlt : i.toNat < s.ilen := hbytes.length ▸ hlen
  have hbyte : byteAt (slice bytes i.toNat (i.toNat + 1)) 0 = b := by simp [byteAt, slice, hb]
  rw [rdbuf, if_pos hlt, hbytes.memRead hlt]
  exact congrArg Except.ok hbyte

theorem rdbuf_of_ilen_le {s : State} {i : Word} (h : s.ilen ≤ i.toNat) : rdbuf i s = .ok 0#8 := if_neg (by omega)

/-- Taking an entry off the schedule changes no byte the port answers. -/
theorem rdbuf_pending (s : State) (rest : List Event) (i : Word) : rdbuf i { s with pending := rest } = rdbuf i s := rfl

theorem step_rdbuf {s : State} {i : Word} {rest : List Event} {b : Byte} (hp : s.pending = .rdbuf i :: rest)
    (hb : rdbuf i s = .ok b) :
    step s = .next { s with pending := rest, hostReads := s.hostReads ++ [.buf i b] } := by
  rw [step_cons hp, runEvent, evRdbuf, rdbuf_pending, hb, withAccess_ok]

/-- Settles O31: below ILEN the port answers the buffer's byte, at ILEN and above 0x00. -/
theorem bufferReadsStopAtIlen : Obligations.BufferReadsStopAtIlen := fun _ _ _ _ hp hbytes =>
  ⟨fun _ hb => step_rdbuf hp (rdbuf_of_getElem? hbytes hb), fun hge => step_rdbuf hp (rdbuf_of_ilen_le hge)⟩

/-! ### NOP (43_control.md R220) -/

/-- Settles O9: the op words after 0x0000 have a reserved bit set, and NOP meets no condition. -/
theorem nopClearsOnlyTheErrorCode : Obligations.NopClearsOnlyTheErrorCode := by
  refine ⟨rfl, fun s => rfl, fun w d b s hlo hhi => runRequest_of_illegal ?_ s⟩
  have hopc : w.toNat / 4096 = 0x0 := by omega
  exact .inr (.inl ⟨by simp [hopc], by dsimp only; omega⟩)

/-! ### Register reads (43_control.md R221) -/

theorem step_rdreg {s : State} {n : Word} {rest : List Event} (hp : s.pending = .rdreg n :: rest) :
    step s = .next { s with pending := rest, hostReads := s.hostReads ++ [.reg n (regValue s n)] } := by
  rw [step_cons hp, runEvent, evRdreg, rdreg, regValue_pending]

theorem regValue_of_unmapped {s : State} {n : Word} (hlow : n.toNat ∉ List.range 0x1A)
    (hentry : ∀ i, i < s.params.nacc → n.toNat ≠ 0x20 + i) : regValue s n = 0#16 := by
  have hge : 0x1A ≤ n.toNat := by simpa using hlow
  rw [regValue_of_ge hge, if_neg]
  rintro ⟨h20, hlt⟩
  exact hentry (n.toNat - 0x20) (by omega) (by omega)

/-- Taking an entry off the schedule and recording what a read returned change no register. -/
theorem regValue_set_agentsSide (s : State) (rest : List Event) (reads : List ReadResult) (n : Word) :
    regValue { s with pending := rest, hostReads := reads } n = regValue s n := rfl

/-- Settles O30: a read's step changes only the agents' side, so the second of two reads answers as the first. -/
theorem registerReadsHaveNoEffect : Obligations.RegisterReadsHaveNoEffect := by
  refine ⟨fun s n rest hp _ hlow hentry => ?_, fun s n rest => step_rdreg, fun s n rest hp => ?_⟩
  · rw [step_rdreg hp, regValue_of_unmapped hlow hentry]
  · have hsecond := step_rdreg (rest := rest)
      (s := { s with pending := .rdreg n :: rest, hostReads := s.hostReads ++ [.reg n (regValue s n)] }) rfl
    rw [regValue_set_agentsSide s, List.append_assoc] at hsecond
    exact (runSteps_succ (step_rdreg hp) 1).trans (runSteps_succ hsecond 0)

end Sys2Proof.Proofs.Control

/-! PROOFS for the family of 60_exceptions.md: what an operation answers (R231–R233), and that in a state that meets
the invariant of 10_state.md R40 no step stops (R235). -/

namespace Sys2Proof.Proofs.Exceptions

open Sys2Proof.Machine Sys2Proof.Proofs.BlockState Sys2Proof.Proofs.FrameExtractor Sys2Proof.Proofs.Control

/-! ### The causes each operation can meet (60_exceptions.md R231) -/

section
variable (s : State) (c : OpErr)

theorem errorCause_capArm (p : Pair) : ErrorCause (.capArm p) s c ↔ c = .busy ∧ s.capstat.active = true := by
  cases c <;> simp [ErrorCause]

theorem errorCause_ibufLoad (bytes : List Byte) : ErrorCause (.ibufLoad bytes) s c ↔
    (c = .busy ∧ s.capstat.active = true) ∨ (c = .tooLong ∧ s.params.ibufSize < bytes.length) := by
  cases c <;> simp [ErrorCause]

theorem errorCause_extract (p : Pair) : ErrorCause (.extract p) s c ↔ c = .notReady ∧ s.capstat.active = true := by
  cases c <;> simp [ErrorCause]

theorem errorCause_decodeReport : ErrorCause .decodeReport s c ↔ c = .notReady ∧ s.extstat.state = .none := by
  cases c <;> simp [ErrorCause]

theorem errorCause_cmdParse : ErrorCause .cmdParse s c ↔ c = .notReady ∧ s.extstat.state = .none := by
  cases c <;> simp [ErrorCause]

theorem errorCause_encode (w : Word) (v : List Byte) : ErrorCause (.encode w v) s c ↔
    (c = .busy ∧ (0 < s.obufCount ∨ s.capstat.active = true)) ∨ (c = .tooLong ∧ s.params.vmax < v.length) := by
  cases c <;> simp [ErrorCause, State.obufCount, List.length_pos_iff]

theorem errorCause_send (w : Word) (v : List Byte) : ErrorCause (.send w v) s c ↔
    (c = .busy ∧ (0 < s.obufCount ∨ s.capstat.active = true)) ∨ (c = .tooLong ∧ s.params.vmax < v.length) := by
  cases c <;> simp [ErrorCause, State.obufCount, List.length_pos_iff]

theorem errorCause_decodeStatus (a : AccSel) :
    ErrorCause (.decodeStatus a) s c ↔ c = .notReady ∧ s.capstat.active = true := by
  cases c <;> simp [ErrorCause]

theorem errorCause_accWr (idx : BitVec 4) (valid : Bool) (code : Word) :
    ErrorCause (.accWr idx valid code) s c ↔ c = .badIndex ∧ s.params.nacc ≤ idx.toNat := by
  cases c <;> simp [ErrorCause]

theorem not_errorCause_nop : ¬ ErrorCause .nop s c := by cases c <;> simp [ErrorCause]

theorem not_errorCause_capClear : ¬ ErrorCause .capClear s c := by cases c <;> simp [ErrorCause]

theorem not_errorCause_txFlush : ¬ ErrorCause .txFlush s c := by cases c <;> simp [ErrorCause]

end

/-! ### The first cause that applies (60_exceptions.md R232) -/

/-- c is the error that goes before every other with a cause: the table's codes rise in the order of priority
(60_exceptions.md R231, R232). -/
structure FirstCause (i : Instr) (s : State) (c : OpErr) : Prop where
  cause : ErrorCause i s c
  first : ∀ c', ErrorCause i s c' → (operrCode c).toNat ≤ (operrCode c').toNat

section
variable {i : Instr} {s : State} {c c' : OpErr}

theorem FirstCause.not_errorCause (h : FirstCause i s c) (hlt : (operrCode c').toNat < (operrCode c).toNat) :
    ¬ ErrorCause i s c' := fun hc' => Nat.not_lt.mpr (h.first c' hc') hlt

theorem FirstCause.ne_ok (h : FirstCause i s c) : c ≠ .ok := by rintro rfl; exact h.cause

theorem FirstCause.ne_illegal (h : FirstCause i s c) : c ≠ .illegal := by rintro rfl; exact h.cause

end

/-! ### What an operation answers (60_exceptions.md R233, R235) -/

/-- Everything an operation can answer: it is rejected with the first cause and changes OPERR only; or no cause
applies, and it completes, or stops on an access of IBUF that no state meeting the invariant makes. -/
inductive OpAnswer (i : Instr) (s : State) : Result → Prop
  | rejected {c : OpErr} (hfirst : FirstCause i s c) : OpAnswer i s (.next { s with operr := c })
  | completed {t : State} (hnone : ∀ c, ¬ ErrorCause i s c) (hok : t.operr = .ok) : OpAnswer i s (.next t)
  | stopped {f : Fault} (hnone : ∀ c, ¬ ErrorCause i s c) (hbroken : ¬ Inv s) : OpAnswer i s (.fault f)

namespace OpAnswer

variable {i : Instr} {s : State}

/-- An operation with one cause checks it first. -/
theorem oneCheck {P : Prop} [Decidable P] {e : OpErr} {go : Result} (hcause : ∀ c, ErrorCause i s c ↔ c = e ∧ P)
    (hgo : (∀ c, ¬ ErrorCause i s c) → OpAnswer i s go) : OpAnswer i s (if P then raiseOpError e s else go) := by
  split
  · next hP => exact .rejected ⟨(hcause e).mpr ⟨rfl, hP⟩, fun c hc => by rw [((hcause c).mp hc).1]⟩
  · next hP => exact hgo fun c hc => hP ((hcause c).mp hc).2

/-- An operation that can be BUSY and TOO_LONG checks BUSY first. -/
theorem twoChecks {P Q : Prop} [Decidable P] [Decidable Q] {go : Result}
    (hcause : ∀ c, ErrorCause i s c ↔ (c = .busy ∧ P) ∨ (c = .tooLong ∧ Q))
    (hgo : (∀ c, ¬ ErrorCause i s c) → OpAnswer i s go) :
    OpAnswer i s (if P then raiseOpError .busy s else if Q then raiseOpError .tooLong s else go) := by
  split
  · next hP =>
    refine .rejected ⟨(hcause .busy).mpr (.inl ⟨rfl, hP⟩), fun c hc => ?_⟩
    obtain ⟨rfl, -⟩ | ⟨rfl, -⟩ := (hcause c).mp hc <;> decide
  · next hP => exact oneCheck (fun c => (hcause c).trans (or_iff_right fun h => hP h.2)) hgo

theorem ite {P : Prop} [Decidable P] {a b : Result} (ha : P → OpAnswer i s a) (hb : ¬ P → OpAnswer i s b) :
    OpAnswer i s (if P then a else b) := iteInduction ha hb

/-- An access that answers in every state meeting the invariant. -/
theorem withAccess {α : Type} {r : Except Fault α} {go : α → Result} (hnone : ∀ c, ¬ ErrorCause i s c)
    (hr : Inv s → ∃ a, r = .ok a) (hgo : ∀ a, OpAnswer i s (go a)) : OpAnswer i s (withAccess r go) := by
  cases r with
  | ok a => exact hgo a
  | error f => exact .stopped hnone fun hinv => nomatch hr hinv

end OpAnswer

/-- A read below ILEN answers. -/
theorem exists_memRead {s : State} {i n : Nat} (h : Inv s) (hin : i + n ≤ s.ilen) : ∃ bs, memRead i n s = .ok bs := by
  obtain ⟨-, ⟨-, -, hlisted⟩, -⟩ := h
  exact ⟨_, (bufferHolds_of_listed hlisted).memRead hin⟩

/-- A read within the body of the extraction answers, because the body lies within the buffer. -/
theorem exists_memRead_body {s : State} {k n : Nat} (h : Inv s) (hfound : s.extstat.state = .found)
    (hin : k + n ≤ s.extLen) : ∃ bs, memRead (s.extStart + k) n s = .ok bs := by
  have ⟨_, _, _, ⟨hext, _⟩, _⟩ := h
  obtain ⟨-, hbody⟩ := hext hfound
  exact exists_memRead h (by omega)

theorem exists_memWrite {s : State} {i : Nat} {v : List Byte} (hin : i + v.length ≤ s.params.ibufSize) :
    ∃ t, memWrite i v s = .ok t := ⟨_, memWrite_ok.mpr ⟨hin, rfl⟩⟩

/-- What each operation answers, in the order of its checks. -/
theorem exec_answer (i : Instr) (s : State) : OpAnswer i s (exec i s) := by
  cases i with
  | nop => exact .completed (not_errorCause_nop s) rfl
  | capClear => exact .completed (not_errorCause_capClear s) rfl
  | capArm p => exact .oneCheck (errorCause_capArm s · p) fun hnone => .completed hnone rfl
  | ibufLoad bytes =>
    refine .twoChecks (errorCause_ibufLoad s · bytes) fun hnone => ?_
    have hfits : ¬ s.params.ibufSize < bytes.length := fun hlong =>
      hnone .tooLong ((errorCause_ibufLoad s .tooLong bytes).mpr (.inr ⟨rfl, hlong⟩))
    exact .withAccess hnone (fun _ => exists_memWrite (by omega)) fun _ => .completed hnone rfl
  | extract p =>
    exact .oneCheck (errorCause_extract s · p) fun hnone =>
      .withAccess hnone (exists_memRead · (Nat.zero_add _).le) fun _ => .completed hnone rfl
  | decodeReport =>
    exact .oneCheck (errorCause_decodeReport s) fun hnone =>
      .ite (fun _ => .completed hnone rfl) fun hfound => .ite (fun _ => .completed hnone rfl) fun _ =>
        .ite (fun _ => .completed hnone rfl) fun hlen =>
          .withAccess hnone (exists_memRead_body · (not_not.mp hfound) (by omega)) fun _ => .completed hnone rfl
  | cmdParse =>
    exact .oneCheck (errorCause_cmdParse s) fun hnone =>
      .ite (fun _ => .completed hnone rfl) fun hfound => .ite (fun _ => .completed hnone rfl) fun _ =>
        .withAccess hnone (exists_memRead_body (k := 0) · (not_not.mp (not_or.mp hfound).1) (Nat.zero_add _).le)
          fun _ => .completed hnone rfl
  | encode w v => exact .twoChecks (errorCause_encode s · w v) fun hnone => .completed hnone rfl
  | send w v => exact .twoChecks (errorCause_send s · w v) fun hnone => .completed hnone rfl
  | decodeStatus a =>
    exact .oneCheck (errorCause_decodeStatus s · a) fun hnone =>
      .ite (fun _ => .completed hnone rfl) fun _ => .ite (fun _ => .completed hnone rfl) fun _ =>
        .ite (fun _ => .completed hnone rfl) fun hlen =>
          .withAccess hnone (exists_memRead · (by omega)) fun _ => .completed hnone rfl
  | accWr idx valid code =>
    exact .oneCheck (errorCause_accWr s · idx valid code) fun hnone => .completed hnone rfl
  | txFlush => exact .completed (not_errorCause_txFlush s) rfl

/-- An operation that answers a next state is rejected with the first cause, or completes with no cause. -/
theorem exec_next {i : Instr} {s t : State} (h : exec i s = .next t) :
    (∃ c, FirstCause i s c ∧ t = { s with operr := c }) ∨ ((∀ c, ¬ ErrorCause i s c) ∧ t.operr = .ok) := by
  have hanswer := exec_answer i s
  rw [h] at hanswer
  cases hanswer with
  | rejected hfirst => exact .inl ⟨_, hfirst, rfl⟩
  | completed hnone hok => exact .inr ⟨hnone, hok⟩

/-- An operation with a cause is rejected. -/
theorem exec_of_errorCause {i : Instr} {s : State} {c : OpErr} (h : ErrorCause i s c) :
    ∃ c', FirstCause i s c' ∧ exec i s = .next { s with operr := c' } := by
  have hanswer := exec_answer i s
  generalize exec i s = r at hanswer
  cases hanswer with
  | rejected hfirst => exact ⟨_, hfirst, rfl⟩
  | completed hnone | stopped hnone => exact absurd h (hnone c)

/-- In a state that meets the invariant every operation answers a next state. -/
theorem exec_answers {s : State} (h : Inv s) (i : Instr) : ∃ t, exec i s = .next t := by
  have hanswer := exec_answer i s
  generalize exec i s = r at hanswer
  cases hanswer with
  | rejected | completed => exact ⟨_, rfl⟩
  | stopped _ hbroken => exact absurd h hbroken

theorem runRequest_of_decode_error {q : OpRequest} {e : DecodeError} (h : decode q = .error e) (s : State) :
    runRequest q s = .next { s with operr := .illegal } :=
  runRequest_of_illegal ((Encoding.exists_decode_error_iff q).mp ⟨e, h⟩) s

/-- Settles O7: an operation that reports an error is rejected with its first cause, and a cause is enough for that. -/
theorem rejectedOperationsChangeOnlyOperr : Obligations.RejectedOperationsChangeOnlyOperr := by
  refine ⟨fun q s t h => ?_, fun q e s hd => runRequest_of_decode_error hd s, fun i c s hcause => ?_⟩
  · obtain ⟨-, rfl⟩ | ⟨i, -, he⟩ := runRequest_next h
    · exact .inr rfl
    · obtain ⟨c, -, rfl⟩ | ⟨-, hok⟩ := exec_next he
      · exact .inr rfl
      · exact .inl hok
  · obtain ⟨c', hfirst, he⟩ := exec_of_errorCause hcause
    exact ⟨c', hfirst.ne_ok, he⟩

/-- The first cause, written out code by code. -/
theorem FirstCause.cases {i : Instr} {s : State} {c : OpErr} (h : FirstCause i s c) :
    (c = .badIndex ∧ ErrorCause i s .badIndex) ∨
    (c = .busy ∧ ErrorCause i s .busy ∧ ¬ ErrorCause i s .badIndex) ∨
    (c = .notReady ∧ ErrorCause i s .notReady ∧ ¬ ErrorCause i s .badIndex ∧ ¬ ErrorCause i s .busy) ∨
    (c = .tooLong ∧ ErrorCause i s .tooLong ∧ ¬ ErrorCause i s .badIndex ∧ ¬ ErrorCause i s .busy ∧
      ¬ ErrorCause i s .notReady) := by
  cases c with
  | ok => exact absurd rfl h.ne_ok
  | illegal => exact absurd rfl h.ne_illegal
  | badIndex => exact .inl ⟨rfl, h.cause⟩
  | busy => exact .inr (.inl ⟨rfl, h.cause, h.not_errorCause (by decide)⟩)
  | notReady =>
    exact .inr (.inr (.inl ⟨rfl, h.cause, h.not_errorCause (by decide), h.not_errorCause (by decide)⟩))
  | tooLong =>
    exact .inr (.inr (.inr ⟨rfl, h.cause, h.not_errorCause (by decide), h.not_errorCause (by decide),
      h.not_errorCause (by decide)⟩))

/-- Settles O8: an operation reports its first cause, or OK with none; neither is ILLEGAL. -/
theorem errorsFollowTheTableInPriorityOrder : Obligations.ErrorsFollowTheTableInPriorityOrder := by
  refine ⟨rfl, fun i s t h => ?_, fun q s t h => ?_⟩
  · obtain ⟨c, hfirst, rfl⟩ | ⟨hnone, hok⟩ := exec_next h
    · exact .inr hfirst.cases
    · exact .inl ⟨hok, hnone⟩
  · obtain ⟨hd, rfl⟩ | ⟨i, hd, he⟩ := runRequest_next h
    · exact iff_of_true rfl hd
    · refine iff_of_false ?_ (by simp [hd])
      obtain ⟨c, hfirst, rfl⟩ | ⟨-, hok⟩ := exec_next he
      · exact hfirst.ne_illegal
      · simp [hok]

/-! ### Nothing stops the block (60_exceptions.md R235) -/

theorem runRequest_answers {s : State} (h : Inv s) (q : OpRequest) : ∃ t, runRequest q s = .next t := by
  cases hd : decode q with
  | ok i => simpa [runRequest, hd] using exec_answers h i
  | error e => exact ⟨_, runRequest_of_decode_error hd s⟩

theorem evRdbuf_answers {s : State} (h : Inv s) (i : Word) : ∃ t, evRdbuf i s = .next t := by
  have hread : ∃ b, rdbuf i s = .ok b := by
    by_cases hi : i.toNat < s.ilen
    · obtain ⟨bs, hbs⟩ := exists_memRead (n := 1) h hi
      exact ⟨_, by rw [rdbuf, if_pos hi, hbs]; rfl⟩
    · exact ⟨_, rdbuf_of_ilen_le (Nat.le_of_not_lt hi)⟩
  obtain ⟨b, hb⟩ := hread
  exact ⟨_, by rw [evRdbuf, hb, withAccess_ok]⟩

/-- An active capture has room for a byte. -/
theorem evRx_answers {s : State} (h : Inv s) (b : Byte) : ∃ t, evRx b s = .next t := by
  obtain ⟨-, ⟨-, -, hlisted⟩, ⟨hactive, -⟩, -⟩ := h
  cases ha : s.capstat.active with
  | false => exact ⟨_, if_pos ha⟩
  | true =>
    obtain ⟨-, -, -, hroom, -⟩ := hactive ha
    exact ⟨_, evRx_eq_received ha (bufferHolds_of_listed hlisted) hroom b⟩

theorem evTx_answers (s : State) : ∃ t, evTx s = .next t := by
  unfold evTx
  split <;> exact ⟨_, rfl⟩

theorem evTimeout_answers (s : State) : ∃ t, evTimeout s = .next t := by
  unfold evTimeout
  split <;> exact ⟨_, rfl⟩

theorem runEvent_answers {s : State} (h : Inv s) (e : Event) : ∃ t, runEvent e s = .next t := by
  cases e with
  | op q => exact runRequest_answers h q
  | rdreg n => exact ⟨_, rfl⟩
  | rdbuf i => exact evRdbuf_answers h i
  | rx b => exact evRx_answers h b
  | tx => exact evTx_answers s
  | timeout => exact evTimeout_answers s
  | reset => exact ⟨_, rfl⟩

/-- Settles O38: with no agent's step to come the block waits, and each agent's step answers. -/
theorem noErrorStopsTheBlock : Obligations.NoErrorStopsTheBlock := by
  intro s h
  cases hp : s.pending with
  | nil => exact ⟨s, step_nil hp⟩
  | cons e rest =>
    rw [step_cons hp]
    exact runEvent_answers (s := { s with pending := rest }) h e

end Sys2Proof.Proofs.Exceptions

/-! PROOFS for the family of 70_reset_and_hazards.md: the state after reset (R260), the block's behaviour right after it
(R262), and stale frame positions (R264). -/

namespace Sys2Proof.Proofs.ResetAndHazards

open Sys2Proof.Machine Sys2Proof.Proofs.BlockState Sys2Proof.Proofs.FrameExtractor Sys2Proof.Proofs.ReportDecoder
open Sys2Proof.Proofs.CommandCodec

/-! ### The registers after reset (70_reset_and_hazards.md R260) -/

section
variable {acc : List AccEntry}

theorem validBits_eq_zero (h : ∀ e ∈ acc, e.valid = false) : validBits acc = 0 := by
  induction acc with
  | nil => rfl
  | cons e es ih =>
    obtain ⟨he, hes⟩ := List.forall_mem_cons.mp h
    simp [validBits, he, ih hes]

theorem accValidWord_eq_zero (h : ∀ e ∈ acc, e.valid = false) (nacc : Nat) : accValidWord nacc acc = 0#16 := by
  rw [accValidWord, validBits_eq_zero fun e he => h e (List.mem_of_mem_take he)]

/-- An index beyond the list reads the default code, which is 0 as well. -/
theorem accCodeWord_eq_zero (h : ∀ e ∈ acc, e.code = 0#16) (i : Nat) : accCodeWord acc i = 0#16 := by
  rw [accCodeWord, List.getD_eq_getElem?_getD]
  cases he : acc[i]? with
  | none => rfl
  | some e => exact h e (List.mem_of_getElem? he)

end

/-- Every field of a status register has code 0 at its reset value. -/
theorem statusWords_reset :
    operrWord .ok = 0#16 ∧ capstatWord ⟨false, .report, .none, false⟩ = 0#16 ∧
    extstatWord ⟨.none, .report, false⟩ = 0#16 ∧ repstatWord ⟨.none, .noTarget, .none⟩ = 0#16 ∧
    cmdstatWord ⟨.none, false⟩ = 0#16 ∧ ststatWord ⟨.none, .default⟩ = 0#16 := by decide

section
variable (p : Params)

theorem acc_resetWith : ∀ e ∈ (State.resetWith p).acc, e.valid = false ∧ e.code = 0#16 := by
  intro e he
  cases List.eq_of_mem_replicate he
  exact ⟨rfl, rfl⟩

theorem regValue_resetWith {n : Word} (h : n.toNat ≠ 0x16 ∧ n.toNat ≠ 0x17 ∧ n.toNat ≠ 0x18) :
    regValue (State.resetWith p) n = 0#16 := by
  obtain ⟨hsize, hvmax, hnacc⟩ := h
  obtain ⟨hoperr, hcap, hext, hrep, hcmd, hst⟩ := statusWords_reset
  unfold regValue
  split
  case h_1 => exact hoperr
  case h_2 => exact hcap
  case h_4 => exact hext
  case h_8 => exact hrep
  case h_15 => exact hcmd
  case h_20 => exact hst
  case h_23 | h_24 | h_25 => contradiction
  case h_26 => exact accValidWord_eq_zero (fun e he => (acc_resetWith p e he).1) _
  case h_27 =>
    split
    · exact accCodeWord_eq_zero (fun e he => (acc_resetWith p e he).2) _
    · rfl
  all_goals rfl

end

theorem step_reset {s : State} {rest : List Event} (hp : s.pending = .reset :: rest) :
    step s = .next { State.resetWith s.params with
      pending := rest, txStream := s.txStream, hostReads := s.hostReads } := step_cons hp

/-- No register reads the agents' side. -/
theorem regValue_set_agents (s : State) (rest : List Event) (sent : List Byte) (reads : List ReadResult) (n : Word) :
    regValue { s with pending := rest, txStream := sent, hostReads := reads } n = regValue s n := rfl

/-- Settles O35: up to the agents' side, which no register reads, the block is in the reset state of its parameters. -/
theorem resetClearsTheBlock : Obligations.ResetClearsTheBlock := by
  intro s rest hp
  refine ⟨_, step_reset hp, fun n hsize hvmax hnacc => ?_, rfl, rfl, rfl, rfl, rfl, List.length_replicate,
    acc_resetWith s.params, rfl, rfl, rfl, rfl, rfl, rfl, rfl, fun hparams => ?_⟩
  · rw [regValue_set_agents]
    exact regValue_resetWith s.params ⟨hsize, hvmax, hnacc⟩
  · have hreset : State.reset = State.resetWith s.params := congrArg State.resetWith hparams.symm
    rw [hreset]
    exact ⟨fun n => rfl, rfl, rfl⟩

/-! ### Right after reset (70_reset_and_hazards.md R262) -/

theorem scanFrame_nil_state (q : Pair) : (scanFrame q []).state = .noHeader := by
  have hnone : find [] (hdr q) 0 = none :=
    find_eq_none_iff.mpr fun i _ h => absurd h.le_length (by simp)
  rw [scanFrame_noHeader hnone]

theorem runEvent_rx_of_inactive {s : State} (ha : s.capstat.active = false) (b : Byte) :
    runEvent (.rx b) s = .next { s with capstat := { s.capstat with rxlost := true } } := if_pos ha

/-- Of the operations only CAP_ARM and SEND make a capture active. -/
theorem opEffect_arms {i : Instr} {s u : State} (he : OpEffect s i u) (ha : s.capstat.active = false)
    (harmed : u.capstat.active = true) : (∃ p, i = .capArm p) ∨ (∃ w v, i = .send w v) := by
  have hne : ¬ s.capstat.active = true := by simp [ha]
  cases he with
  | capArm p => exact .inl ⟨p, rfl⟩
  | send w v => exact .inr ⟨w, v, rfl⟩
  | capClear => cases harmed
  | unchanged | ibufLoad | extract | reportCorrupt | reportValid | parseFailed | parseBody | encode | decodeStatus
  | accWr | txFlush => exact absurd harmed hne

/-- Of the agents' steps only an operation makes a capture active: a received byte, a timeout and reset at most
end one. -/
theorem agentEffect_arms {e : Event} {s t : State} (he : AgentEffect s e t) (ha : s.capstat.active = false)
    (harmed : t.capstat.active = true) : (∃ p, Issues e (.capArm p)) ∨ (∃ w v, Issues e (.send w v)) := by
  have hne : ¬ s.capstat.active = true := by simp [ha]
  cases he with
  | @op q i u hdecode heffect c =>
    obtain ⟨p, rfl⟩ | ⟨w, v, rfl⟩ := opEffect_arms heffect ha harmed
    · exact .inl ⟨p, q, rfl, hdecode⟩
    · exact .inr ⟨w, v, q, rfl, hdecode⟩
  | rxEnded | timeout | reset => cases harmed
  | illegal | rdreg | rdbuf | rxLost | rxAppended | txIdle | tx | timeoutIdle => exact absurd harmed hne

/-- Settles O36: the reset state has no capture, no extraction and an empty buffer, and the steps' effects show which
of them arm a capture. -/
theorem behaviourRightAfterReset : Obligations.BehaviourRightAfterReset := by
  refine ⟨fun p => ⟨fun b => ⟨_, runEvent_rx_of_inactive rfl b, rfl, rfl, rfl⟩,
    ⟨_, exec_decodeReport_of_none rfl, rfl⟩,
    ⟨_, exec_cmdParse_of_none rfl, rfl⟩, fun a => ?_, fun q => ?_⟩, fun s t e rest hp h ha harmed =>
    (agentEffect_arms (step_effect hp h) ha harmed :)⟩
  · exact ⟨_, exec_decodeStatus_of_short rfl a (by simp [State.resetWith]) (by simp [State.resetWith])
      (Nat.zero_lt_succ 9), rfl, rfl⟩
  · exact ⟨_, exec_extract_of_inactive rfl (bytes := []) rfl q, scanFrame_nil_state q, rfl⟩

/-! ### Stale positions (70_reset_and_hazards.md R264) -/

/-- Of the operations only EXTRACT makes an extraction valid. -/
theorem opEffect_extracts {i : Instr} {s u : State} (he : OpEffect s i u) (hnone : s.extstat.state = .none)
    (hview : u.extstat.state ≠ .none) : ∃ p, i = .extract p := by
  cases he with
  | extract p => exact ⟨p, rfl⟩
  | capClear | capArm | ibufLoad | send => exact absurd rfl hview
  | unchanged | reportCorrupt | reportValid | parseFailed | parseBody | encode | decodeStatus | accWr | txFlush =>
    exact absurd hnone hview

/-- Of the agents' steps only an EXTRACT makes an extraction valid. -/
theorem agentEffect_extracts {e : Event} {s t : State} (he : AgentEffect s e t) (hnone : s.extstat.state = .none)
    (hview : t.extstat.state ≠ .none) : ∃ p, Issues e (.extract p) := by
  cases he with
  | @op q i u hdecode heffect c =>
    obtain ⟨p, rfl⟩ := opEffect_extracts heffect hnone hview
    exact ⟨p, q, rfl, hdecode⟩
  | rxAppended | rxEnded | reset => exact absurd rfl hview
  | illegal | rdreg | rdbuf | rxLost | txIdle | tx | timeoutIdle | timeout => exact absurd hnone hview

/-- Settles O47: only the effect of EXTRACT writes a state other than NONE, and each rejection is its operation's
first check. -/
theorem stalePositionsAreNeverUsed : Obligations.StalePositionsAreNeverUsed :=
  ⟨fun _ _ _ _ hp h hnone hview => (agentEffect_extracts (step_effect hp h) hnone hview :),
    fun _ hnone => ⟨exec_decodeReport_of_none hnone, exec_cmdParse_of_none hnone⟩,
    fun _ p a ha => ⟨exec_extract_of_active ha p, exec_decodeStatus_of_active ha a⟩⟩

end Sys2Proof.Proofs.ResetAndHazards
